-- ==== Sys2Proof/Word.lean ====
section
/-! DEFINITION. The widths of 00_scope.md rule R5: bytes, 16-bit words, 12-bit memory addresses, register numbers. -/

namespace Sys2Proof

/-- A byte: what a general register, a timer and a memory cell hold (R5 `XLEN`, `BYTE`, `TIMER_WIDTH`). -/
abbrev Byte := BitVec 8

/-- A 16-bit word: an instruction word, `PC`, `I`, a stack entry (R5 `ILEN`, `PC_WIDTH`, `I_WIDTH`, `STACK_ENTRY_WIDTH`). -/
abbrev Word := BitVec 16

/-- A 12-bit memory address (R5 `ADDR_WIDTH`); also the 12-bit operand `nnn` (R62). -/
abbrev Addr := BitVec 12

/-- The number of a general register, 0 to 15 (R10). -/
abbrev Reg := Fin 16

/-- VF, the flag register, is general register 15 (R7, R11). -/
abbrev vf : Reg := 15

/-- V0, the offset register of JP V0 and the first register of the register transfers (R7, R99, R125). -/
abbrev v0 : Reg := 0

end Sys2Proof
end

