-- ==== Sys2Proof/Syntax.lean ====
section
/-! DEFINITION. The 34 instructions (30_encoding.md rule R64), and the assembler lines of rules R70 and R71. -/

namespace Sys2Proof

/-- The 34 instructions of R64, in its order. A register operand is a register number, `nn` an 8-bit immediate, `nnn` a 12-bit
address, `n` a row count 0 to 15 (R62): an operand the encoding cannot hold cannot be written. -/
inductive Instr
  /-- 00E0, CLS (R130). -/
  | cls
  /-- 00EE, RET (R93, R94). -/
  | ret
  /-- 1nnn, JP nnn (R90). -/
  | jp (nnn : Addr)
  /-- 2nnn, CALL nnn (R91, R92). -/
  | call (nnn : Addr)
  /-- 3xnn, SE Vx, nn (R95). -/
  | seImm (x : Reg) (nn : Byte)
  /-- 4xnn, SNE Vx, nn (R96). -/
  | sneImm (x : Reg) (nn : Byte)
  /-- 5xy0, SE Vx, Vy (R97). -/
  | seReg (x y : Reg)
  /-- 6xnn, LD Vx, nn (R100). -/
  | ldImm (x : Reg) (nn : Byte)
  /-- 7xnn, ADD Vx, nn (R101). -/
  | addImm (x : Reg) (nn : Byte)
  /-- 8xy0, LD Vx, Vy (R103). -/
  | ldReg (x y : Reg)
  /-- 8xy1, OR Vx, Vy (R104). -/
  | orReg (x y : Reg)
  /-- 8xy2, AND Vx, Vy (R105). -/
  | andReg (x y : Reg)
  /-- 8xy3, XOR Vx, Vy (R106). -/
  | xorReg (x y : Reg)
  /-- 8xy4, ADD Vx, Vy (R107). -/
  | addReg (x y : Reg)
  /-- 8xy5, SUB Vx, Vy (R108). -/
  | subReg (x y : Reg)
  /-- 8xy6, SHR Vx, Vy (R109). -/
  | shr (x y : Reg)
  /-- 8xy7, SUBN Vx, Vy (R110). -/
  | subn (x y : Reg)
  /-- 8xyE, SHL Vx, Vy (R111). -/
  | shl (x y : Reg)
  /-- 9xy0, SNE Vx, Vy (R98). -/
  | sneReg (x y : Reg)
  /-- Annn, LD I, nnn (R120). -/
  | ldI (nnn : Addr)
  /-- Bnnn, JP V0, nnn (R99). -/
  | jpV0 (nnn : Addr)
  /-- Cxnn, RND Vx, nn (R113). -/
  | rnd (x : Reg) (nn : Byte)
  /-- Dxyn, DRW Vx, Vy, n (R131). -/
  | drw (x y : Reg) (n : Fin 16)
  /-- Ex9E, SKP Vx (R140). -/
  | skp (x : Reg)
  /-- ExA1, SKNP Vx (R141). -/
  | sknp (x : Reg)
  /-- Fx07, LD Vx, DT (R142). -/
  | ldVxDT (x : Reg)
  /-- Fx0A, LD Vx, K (R143). -/
  | ldVxK (x : Reg)
  /-- Fx15, LD DT, Vx (R144). -/
  | ldDT (x : Reg)
  /-- Fx18, LD ST, Vx (R145). -/
  | ldST (x : Reg)
  /-- Fx1E, ADD I, Vx (R121). -/
  | addI (x : Reg)
  /-- Fx29, LD F, Vx (R122). -/
  | ldF (x : Reg)
  /-- Fx33, LD B, Vx (R124). -/
  | ldB (x : Reg)
  /-- Fx55, LD [I], Vx (R125). -/
  | ldMemVx (x : Reg)
  /-- Fx65, LD Vx, [I] (R126). -/
  | ldVxMem (x : Reg)
  deriving DecidableEq, Repr

/-- The mnemonics of R64 and R70. -/
inductive Mnemonic
  | CLS | RET | JP | CALL | SE | SNE | LD | ADD | OR | AND | XOR | SUB | SHR | SUBN | SHL | RND | DRW | SKP | SKNP
  deriving DecidableEq, Repr

/-- An operand of an assembler line (R70): a register or a numeral as WRITTEN, so of any size, or a fixed operand name. -/
inductive Operand
  /-- `V` with a register number. -/
  | v (k : Nat)
  /-- A numeral: `nn`, `nnn` or `n` according to its place. -/
  | num (k : Nat)
  /-- `I`, the index register. -/
  | i
  /-- `[I]`, memory at the index register. -/
  | memI
  /-- `DT`, the delay timer. -/
  | dt
  /-- `ST`, the sound timer. -/
  | st
  /-- `K`, wait for a key. -/
  | k
  /-- `F`, font glyph address. -/
  | f
  /-- `B`, binary-coded decimal. -/
  | b
  deriving DecidableEq, Repr

/-- One instruction as written: `MNEMONIC operand, operand, operand`, destination first (R70). -/
structure AsmLine where
  mnemonic : Mnemonic
  operands : List Operand
  deriving DecidableEq, Repr

/-- One item of a program listing: an instruction, or one of the directives DW and DB, which are no instructions (R71). -/
inductive ListingItem
  | instr (i : Instr)
  | dw (w : Word)
  | db (b : Byte)
  deriving DecidableEq, Repr

end Sys2Proof
end

