-- ==== Sys2Proof/WellFormed.lean ====
section
/-! DEFINITION. When an assembler line is an instruction: its operands have one of the shapes R64 gives its mnemonic, its register
numbers are 0 to 15, and its numerals "must fit 8, 12 and 4 bits" (30_encoding.md rule R70). -/

namespace Sys2Proof

/-- The operand shapes of R64's mnemonic column, numbers left out. -/
inductive Shape
  | none | addr | reg | regImm | regReg | regRegNibble | indexAddr | zeroAddr
  | regDT | regK | dtReg | stReg | indexReg | fReg | bReg | memReg | regMem
  deriving DecidableEq, Repr

/-- The eleven operand shapes of LD. -/
def ldShape : List Operand → Option Shape
  | [.v _, .num _] => some .regImm
  | [.v _, .v _] => some .regReg
  | [.v _, .dt] => some .regDT
  | [.v _, .k] => some .regK
  | [.v _, .memI] => some .regMem
  | [.i, .num _] => some .indexAddr
  | [.dt, .v _] => some .dtReg
  | [.st, .v _] => some .stReg
  | [.f, .v _] => some .fReg
  | [.b, .v _] => some .bReg
  | [.memI, .v _] => some .memReg
  | _ => Option.none

/-- The three operand shapes of ADD, and the two of SE and SNE. -/
def arithShape : List Operand → Option Shape
  | [.v _, .num _] => some .regImm
  | [.v _, .v _] => some .regReg
  | [.i, .v _] => some .indexReg
  | _ => Option.none

/-- The two operand shapes of JP. `JP V0, nnn` is the one form with a register and an address, and its register is V0 (R70, R99):
a line that writes another has no shape. -/
def jpShape : List Operand → Option Shape
  | [.num _] => some .addr
  | [.v 0, .num _] => some .zeroAddr
  | _ => Option.none

/-- Two registers: OR, AND, XOR, SUB, SHR, SUBN, SHL. -/
def regRegShape : List Operand → Option Shape
  | [.v _, .v _] => some .regReg
  | _ => Option.none

/-- The shape a list of operands has for a mnemonic (R64). -/
def shapeOf (m : Mnemonic) (ops : List Operand) : Option Shape :=
  match m with
  | .CLS | .RET => if ops = [] then some .none else Option.none
  | .JP => jpShape ops
  | .CALL => if jpShape ops = some .addr then some .addr else Option.none
  | .SE | .SNE => if arithShape ops = some .indexReg then Option.none else arithShape ops
  | .ADD => arithShape ops
  | .LD => ldShape ops
  | .OR | .AND | .XOR | .SUB | .SHR | .SUBN | .SHL => regRegShape ops
  | .RND => if arithShape ops = some .regImm then some .regImm else Option.none
  | .DRW =>
    match ops with
    | [.v _, .v _, .num _] => some .regRegNibble
    | _ => Option.none
  | .SKP | .SKNP =>
    match ops with
    | [.v _] => some .reg
    | _ => Option.none

/-- How many bits a numeral has in a shape: 12 for an address, 8 for an immediate, 4 for a row count (R62, R70). -/
def Shape.numeralBits : Shape → Nat
  | .addr | .indexAddr | .zeroAddr => 12
  | .regImm => 8
  | .regRegNibble => 4
  | .none | .reg | .regReg | .regDT | .regK | .dtReg | .stReg | .indexReg | .fReg | .bReg | .memReg | .regMem => 0

/-- A register is 0 to 15 and a numeral fits its bits (R70). -/
def Operand.fits (bits : Nat) : Operand → Bool
  | .v r => decide (r < 16)
  | .num m => decide (m < 2 ^ bits)
  | .i | .memI | .dt | .st | .k | .f | .b => true

/-- A line is an instruction (R70). -/
def AsmLine.wellFormed (l : AsmLine) : Bool :=
  match shapeOf l.mnemonic l.operands with
  | some sh => l.operands.all (Operand.fits sh.numeralBits)
  | Option.none => false

/-- The line of an instruction, as the mnemonic column of R64 spells it. -/
def Instr.toAsm : Instr → AsmLine
  | .cls => ⟨.CLS, []⟩
  | .ret => ⟨.RET, []⟩
  | .jp nnn => ⟨.JP, [.num nnn.toNat]⟩
  | .call nnn => ⟨.CALL, [.num nnn.toNat]⟩
  | .seImm x nn => ⟨.SE, [.v x, .num nn.toNat]⟩
  | .sneImm x nn => ⟨.SNE, [.v x, .num nn.toNat]⟩
  | .seReg x y => ⟨.SE, [.v x, .v y]⟩
  | .ldImm x nn => ⟨.LD, [.v x, .num nn.toNat]⟩
  | .addImm x nn => ⟨.ADD, [.v x, .num nn.toNat]⟩
  | .ldReg x y => ⟨.LD, [.v x, .v y]⟩
  | .orReg x y => ⟨.OR, [.v x, .v y]⟩
  | .andReg x y => ⟨.AND, [.v x, .v y]⟩
  | .xorReg x y => ⟨.XOR, [.v x, .v y]⟩
  | .addReg x y => ⟨.ADD, [.v x, .v y]⟩
  | .subReg x y => ⟨.SUB, [.v x, .v y]⟩
  | .shr x y => ⟨.SHR, [.v x, .v y]⟩
  | .subn x y => ⟨.SUBN, [.v x, .v y]⟩
  | .shl x y => ⟨.SHL, [.v x, .v y]⟩
  | .sneReg x y => ⟨.SNE, [.v x, .v y]⟩
  | .ldI nnn => ⟨.LD, [.i, .num nnn.toNat]⟩
  | .jpV0 nnn => ⟨.JP, [.v 0, .num nnn.toNat]⟩
  | .rnd x nn => ⟨.RND, [.v x, .num nn.toNat]⟩
  | .drw x y n => ⟨.DRW, [.v x, .v y, .num n]⟩
  | .skp x => ⟨.SKP, [.v x]⟩
  | .sknp x => ⟨.SKNP, [.v x]⟩
  | .ldVxDT x => ⟨.LD, [.v x, .dt]⟩
  | .ldVxK x => ⟨.LD, [.v x, .k]⟩
  | .ldDT x => ⟨.LD, [.dt, .v x]⟩
  | .ldST x => ⟨.LD, [.st, .v x]⟩
  | .addI x => ⟨.ADD, [.i, .v x]⟩
  | .ldF x => ⟨.LD, [.f, .v x]⟩
  | .ldB x => ⟨.LD, [.b, .v x]⟩
  | .ldMemVx x => ⟨.LD, [.memI, .v x]⟩
  | .ldVxMem x => ⟨.LD, [.v x, .memI]⟩

/-- An instruction is well-formed when its line is. Its operand types leave no instruction out:
`Sys2Proof.Laws.WellFormedLine.all` proves it of each constructor. -/
def Instr.wellFormed (i : Instr) : Bool := i.toAsm.wellFormed

end Sys2Proof
end

