-- ==== Sys2Proof/Decode.lean ====
section
/-! DEFINITION. 30_encoding.md: the decoder (rules R61 to R64, R66, R67), the encoder, the opcode map of R64 as a table of rows,
the assembler of R70 and the listings of R71. -/

namespace Sys2Proof

/-- Why a word is unrecognised: the six groups R67 lists exhaustively. Such a word is no error: it executes as a no-operation
(R66), see `Machine.execUnrecognised`. -/
inductive Unrecognised
  /-- R67 (a): `0nnn` other than 00E0 and 00EE. -/
  | family0
  /-- R67 (b): `5xyn` with `n` not 0. -/
  | family5
  /-- R67 (c): `9xyn` with `n` not 0. -/
  | family9
  /-- R67 (d), R114: `8xyn` with `n` one of 8, 9, A, B, C, D, F. -/
  | family8
  /-- R67 (e): `Exnn` with `nn` neither 9E nor A1. -/
  | familyE
  /-- R67 (f): `Fxnn` with `nn` none of the nine bytes of R64. -/
  | familyF
  deriving DecidableEq, Repr

/-! ## Fields (R8, R61, R62) -/

/-- Four bits of a word, from bit `lo` up, as a number 0 to 15. -/
def nibble (w : Word) (lo : Nat) : Fin 16 := (w.extractLsb' lo 4).toFin

/-- `op` = `w[15:12]`. -/
def fieldOp (w : Word) : Fin 16 := nibble w 12
/-- `x` = `w[11:8]`. -/
def fieldX (w : Word) : Reg := nibble w 8
/-- `y` = `w[7:4]`. -/
def fieldY (w : Word) : Reg := nibble w 4
/-- `n` = `w[3:0]`. -/
def fieldN (w : Word) : Fin 16 := nibble w 0
/-- `nn` = `w[7:0]`. -/
def fieldNN (w : Word) : Byte := w.extractLsb' 0 8
/-- `nnn` = `w[11:0]`. -/
def fieldNNN (w : Word) : Addr := w.extractLsb' 0 12

/-! ## Decoding (R63) -/

/-- Family 0: the whole word is fixed (format Z). -/
def decode0 (w : Word) : Except Unrecognised Instr :=
  if w = 0x00E0 then .ok .cls else if w = 0x00EE then .ok .ret else .error .family0

/-- Family 8 selects on the low nibble (format XY). -/
def decode8 (w : Word) : Except Unrecognised Instr :=
  match (fieldN w).val with
  | 0x0 => .ok (.ldReg (fieldX w) (fieldY w))
  | 0x1 => .ok (.orReg (fieldX w) (fieldY w))
  | 0x2 => .ok (.andReg (fieldX w) (fieldY w))
  | 0x3 => .ok (.xorReg (fieldX w) (fieldY w))
  | 0x4 => .ok (.addReg (fieldX w) (fieldY w))
  | 0x5 => .ok (.subReg (fieldX w) (fieldY w))
  | 0x6 => .ok (.shr (fieldX w) (fieldY w))
  | 0x7 => .ok (.subn (fieldX w) (fieldY w))
  | 0xE => .ok (.shl (fieldX w) (fieldY w))
  | _ => .error .family8

/-- Family E selects on the low byte (format X). -/
def decodeE (w : Word) : Except Unrecognised Instr :=
  match (fieldNN w).toNat with
  | 0x9E => .ok (.skp (fieldX w))
  | 0xA1 => .ok (.sknp (fieldX w))
  | _ => .error .familyE

/-- Family F selects on the low byte (format X). -/
def decodeF (w : Word) : Except Unrecognised Instr :=
  match (fieldNN w).toNat with
  | 0x07 => .ok (.ldVxDT (fieldX w))
  | 0x0A => .ok (.ldVxK (fieldX w))
  | 0x15 => .ok (.ldDT (fieldX w))
  | 0x18 => .ok (.ldST (fieldX w))
  | 0x1E => .ok (.addI (fieldX w))
  | 0x29 => .ok (.ldF (fieldX w))
  | 0x33 => .ok (.ldB (fieldX w))
  | 0x55 => .ok (.ldMemVx (fieldX w))
  | 0x65 => .ok (.ldVxMem (fieldX w))
  | _ => .error .familyF

/-- Select by the top digit, then inside the family (R63). Total on all 65536 words; the last arm is `op` = F, the only digit
left. -/
def decode (w : Word) : Except Unrecognised Instr :=
  match (fieldOp w).val with
  | 0x0 => decode0 w
  | 0x1 => .ok (.jp (fieldNNN w))
  | 0x2 => .ok (.call (fieldNNN w))
  | 0x3 => .ok (.seImm (fieldX w) (fieldNN w))
  | 0x4 => .ok (.sneImm (fieldX w) (fieldNN w))
  | 0x5 => if fieldN w = 0 then .ok (.seReg (fieldX w) (fieldY w)) else .error .family5
  | 0x6 => .ok (.ldImm (fieldX w) (fieldNN w))
  | 0x7 => .ok (.addImm (fieldX w) (fieldNN w))
  | 0x8 => decode8 w
  | 0x9 => if fieldN w = 0 then .ok (.sneReg (fieldX w) (fieldY w)) else .error .family9
  | 0xA => .ok (.ldI (fieldNNN w))
  | 0xB => .ok (.jpV0 (fieldNNN w))
  | 0xC => .ok (.rnd (fieldX w) (fieldNN w))
  | 0xD => .ok (.drw (fieldX w) (fieldY w) (fieldN w))
  | 0xE => decodeE w
  | _ => decodeF w

/-- Decode the two bytes of an instruction as memory holds them, the byte at the lower address first: it is `w[15:8]` (R44). -/
def decodeBytes (first second : Byte) : Except Unrecognised Instr := decode (first ++ second)

/-- The host's name for the decoder: the instruction whose bits, numbered as spec/opcode_table.json numbers them, are `w`.
Every instruction is one 16-bit word (R60), so no row has more than 16 bits. -/
def decodeTableWord (nbits w : Nat) : Option Instr :=
  if nbits ≤ 16 then (decode (BitVec.ofNat 16 (w % 2 ^ nbits))).toOption else none

/-! ## Encoding: R61's formats put together again -/

/-- A word from four hexadecimal digits, the most significant first (formats XY and XYN). -/
def word4 (a b c d : Fin 16) : Word :=
  BitVec.ofFin (w := 4) a ++ BitVec.ofFin (w := 4) b ++ BitVec.ofFin (w := 4) c ++ BitVec.ofFin (w := 4) d

/-- Formats XI and X: digit, register, byte. -/
def wordXI (op : Fin 16) (x : Reg) (nn : Byte) : Word := BitVec.ofFin (w := 4) op ++ BitVec.ofFin (w := 4) x ++ nn

/-- Format A: digit, address. -/
def wordA (op : Fin 16) (nnn : Addr) : Word := BitVec.ofFin (w := 4) op ++ nnn

/-- The word of an instruction, pattern by pattern as R64 lists them. -/
def encode : Instr → Word
  | .cls => 0x00E0
  | .ret => 0x00EE
  | .jp nnn => wordA 0x1 nnn
  | .call nnn => wordA 0x2 nnn
  | .seImm x nn => wordXI 0x3 x nn
  | .sneImm x nn => wordXI 0x4 x nn
  | .seReg x y => word4 0x5 x y 0x0
  | .ldImm x nn => wordXI 0x6 x nn
  | .addImm x nn => wordXI 0x7 x nn
  | .ldReg x y => word4 0x8 x y 0x0
  | .orReg x y => word4 0x8 x y 0x1
  | .andReg x y => word4 0x8 x y 0x2
  | .xorReg x y => word4 0x8 x y 0x3
  | .addReg x y => word4 0x8 x y 0x4
  | .subReg x y => word4 0x8 x y 0x5
  | .shr x y => word4 0x8 x y 0x6
  | .subn x y => word4 0x8 x y 0x7
  | .shl x y => word4 0x8 x y 0xE
  | .sneReg x y => word4 0x9 x y 0x0
  | .ldI nnn => wordA 0xA nnn
  | .jpV0 nnn => wordA 0xB nnn
  | .rnd x nn => wordXI 0xC x nn
  | .drw x y n => word4 0xD x y n
  | .skp x => wordXI 0xE x 0x9E
  | .sknp x => wordXI 0xE x 0xA1
  | .ldVxDT x => wordXI 0xF x 0x07
  | .ldVxK x => wordXI 0xF x 0x0A
  | .ldDT x => wordXI 0xF x 0x15
  | .ldST x => wordXI 0xF x 0x18
  | .addI x => wordXI 0xF x 0x1E
  | .ldF x => wordXI 0xF x 0x29
  | .ldB x => wordXI 0xF x 0x33
  | .ldMemVx x => wordXI 0xF x 0x55
  | .ldVxMem x => wordXI 0xF x 0x65

/-- The high byte of a word, stored at the lower address (R44). -/
def highByte (w : Word) : Byte := w.extractLsb' 8 8
/-- The low byte of a word, stored at the higher address (R44). -/
def lowByte (w : Word) : Byte := w.extractLsb' 0 8
/-- The two bytes of a word in the order memory holds them (R44, R45). -/
def wordBytes (w : Word) : List Byte := [highByte w, lowByte w]

/-! ## The opcode map of R64 as a table -/

/-- One row of R64: a word `w` is the instruction of the row exactly when `(w & mask) == match`. -/
structure OpRow where
  mnemonic : String
  mask : Word
  bits : Word
  build : Word → Instr

/-- `(w & mask) == match` (R64). -/
def OpRow.matches (r : OpRow) (w : Word) : Bool := (w &&& r.mask) == r.bits

/-- R64, rows 1 to 34. -/
def opcodeTable : List OpRow :=
  [⟨"CLS", 0xFFFF, 0x00E0, fun _ => .cls⟩,
   ⟨"RET", 0xFFFF, 0x00EE, fun _ => .ret⟩,
   ⟨"JP_nnn", 0xF000, 0x1000, fun w => .jp (fieldNNN w)⟩,
   ⟨"CALL_nnn", 0xF000, 0x2000, fun w => .call (fieldNNN w)⟩,
   ⟨"SE_Vx__nn", 0xF000, 0x3000, fun w => .seImm (fieldX w) (fieldNN w)⟩,
   ⟨"SNE_Vx__nn", 0xF000, 0x4000, fun w => .sneImm (fieldX w) (fieldNN w)⟩,
   ⟨"SE_Vx__Vy", 0xF00F, 0x5000, fun w => .seReg (fieldX w) (fieldY w)⟩,
   ⟨"LD_Vx__nn", 0xF000, 0x6000, fun w => .ldImm (fieldX w) (fieldNN w)⟩,
   ⟨"ADD_Vx__nn", 0xF000, 0x7000, fun w => .addImm (fieldX w) (fieldNN w)⟩,
   ⟨"LD_Vx__Vy", 0xF00F, 0x8000, fun w => .ldReg (fieldX w) (fieldY w)⟩,
   ⟨"OR_Vx__Vy", 0xF00F, 0x8001, fun w => .orReg (fieldX w) (fieldY w)⟩,
   ⟨"AND_Vx__Vy", 0xF00F, 0x8002, fun w => .andReg (fieldX w) (fieldY w)⟩,
   ⟨"XOR_Vx__Vy", 0xF00F, 0x8003, fun w => .xorReg (fieldX w) (fieldY w)⟩,
   ⟨"ADD_Vx__Vy", 0xF00F, 0x8004, fun w => .addReg (fieldX w) (fieldY w)⟩,
   ⟨"SUB_Vx__Vy", 0xF00F, 0x8005, fun w => .subReg (fieldX w) (fieldY w)⟩,
   ⟨"SHR_Vx__Vy", 0xF00F, 0x8006, fun w => .shr (fieldX w) (fieldY w)⟩,
   ⟨"SUBN_Vx__Vy", 0xF00F, 0x8007, fun w => .subn (fieldX w) (fieldY w)⟩] ++
  [⟨"SHL_Vx__Vy", 0xF00F, 0x800E, fun w => .shl (fieldX w) (fieldY w)⟩,
   ⟨"SNE_Vx__Vy", 0xF00F, 0x9000, fun w => .sneReg (fieldX w) (fieldY w)⟩,
   ⟨"LD_I__nnn", 0xF000, 0xA000, fun w => .ldI (fieldNNN w)⟩,
   ⟨"JP_V0__nnn", 0xF000, 0xB000, fun w => .jpV0 (fieldNNN w)⟩,
   ⟨"RND_Vx__nn", 0xF000, 0xC000, fun w => .rnd (fieldX w) (fieldNN w)⟩,
   ⟨"DRW_Vx__Vy__n", 0xF000, 0xD000, fun w => .drw (fieldX w) (fieldY w) (fieldN w)⟩,
   ⟨"SKP_Vx", 0xF0FF, 0xE09E, fun w => .skp (fieldX w)⟩,
   ⟨"SKNP_Vx", 0xF0FF, 0xE0A1, fun w => .sknp (fieldX w)⟩,
   ⟨"LD_Vx__DT", 0xF0FF, 0xF007, fun w => .ldVxDT (fieldX w)⟩,
   ⟨"LD_Vx__K", 0xF0FF, 0xF00A, fun w => .ldVxK (fieldX w)⟩,
   ⟨"LD_DT__Vx", 0xF0FF, 0xF015, fun w => .ldDT (fieldX w)⟩,
   ⟨"LD_ST__Vx", 0xF0FF, 0xF018, fun w => .ldST (fieldX w)⟩,
   ⟨"ADD_I__Vx", 0xF0FF, 0xF01E, fun w => .addI (fieldX w)⟩,
   ⟨"LD_F__Vx", 0xF0FF, 0xF029, fun w => .ldF (fieldX w)⟩,
   ⟨"LD_B__Vx", 0xF0FF, 0xF033, fun w => .ldB (fieldX w)⟩,
   ⟨"LD__I___Vx", 0xF0FF, 0xF055, fun w => .ldMemVx (fieldX w)⟩,
   ⟨"LD_Vx___I", 0xF0FF, 0xF065, fun w => .ldVxMem (fieldX w)⟩]

/-- The table read directly: the first row that matches, R64's row 35 when none does. -/
def tableDecode (w : Word) : Option Instr := (opcodeTable.find? (·.matches w)).map (·.build w)

/-! ## The assembler of R70 and the listings of R71 -/

/-- A written register number or row count as a 4-bit field; `assemble` uses it only on lines whose numbers fit. -/
def asReg (k : Nat) : Fin 16 := Fin.ofNat 16 k

/-- LD by its operands. -/
def assembleLD : List Operand → Option Instr
  | [.v x, .num nn] => some (.ldImm (asReg x) (BitVec.ofNat 8 nn))
  | [.v x, .v y] => some (.ldReg (asReg x) (asReg y))
  | [.v x, .dt] => some (.ldVxDT (asReg x))
  | [.v x, .k] => some (.ldVxK (asReg x))
  | [.v x, .memI] => some (.ldVxMem (asReg x))
  | [.i, .num nnn] => some (.ldI (BitVec.ofNat 12 nnn))
  | [.dt, .v x] => some (.ldDT (asReg x))
  | [.st, .v x] => some (.ldST (asReg x))
  | [.f, .v x] => some (.ldF (asReg x))
  | [.b, .v x] => some (.ldB (asReg x))
  | [.memI, .v x] => some (.ldMemVx (asReg x))
  | _ => none

/-- The mnemonics with a register and a second operand. -/
def assembleTwo (imm : Option (Reg → Byte → Instr)) (reg : Option (Reg → Reg → Instr)) (index : Option (Reg → Instr)) :
    List Operand → Option Instr
  | [.v x, .num nn] => imm.map fun f => f (asReg x) (BitVec.ofNat 8 nn)
  | [.v x, .v y] => reg.map fun f => f (asReg x) (asReg y)
  | [.i, .v x] => index.map fun f => f (asReg x)
  | _ => none

/-- A line by its mnemonic, its numbers taken as they are. -/
def assembleOperands (m : Mnemonic) (ops : List Operand) : Option Instr :=
  match m with
  | .CLS => some .cls
  | .RET => some .ret
  | .JP =>
    match ops with
    | [.num nnn] => some (.jp (BitVec.ofNat 12 nnn))
    | [.v _, .num nnn] => some (.jpV0 (BitVec.ofNat 12 nnn))
    | _ => none
  | .CALL =>
    match ops with
    | [.num nnn] => some (.call (BitVec.ofNat 12 nnn))
    | _ => none
  | .SE => assembleTwo (some .seImm) (some .seReg) none ops
  | .SNE => assembleTwo (some .sneImm) (some .sneReg) none ops
  | .ADD => assembleTwo (some .addImm) (some .addReg) (some .addI) ops
  | .LD => assembleLD ops
  | .OR => assembleTwo none (some .orReg) none ops
  | .AND => assembleTwo none (some .andReg) none ops
  | .XOR => assembleTwo none (some .xorReg) none ops
  | .SUB => assembleTwo none (some .subReg) none ops
  | .SHR => assembleTwo none (some .shr) none ops
  | .SUBN => assembleTwo none (some .subn) none ops
  | .SHL => assembleTwo none (some .shl) none ops
  | .RND => assembleTwo (some .rnd) none none ops
  | .DRW =>
    match ops with
    | [.v x, .v y, .num n] => some (.drw (asReg x) (asReg y) (asReg n))
    | _ => none
  | .SKP =>
    match ops with
    | [.v x] => some (.skp (asReg x))
    | _ => none
  | .SKNP =>
    match ops with
    | [.v x] => some (.sknp (asReg x))
    | _ => none

/-- The instruction a well-formed line stands for; none for a line that is not well-formed (R70). -/
def assemble (l : AsmLine) : Option Instr := if l.wellFormed then assembleOperands l.mnemonic l.operands else none

/-- The bytes of one listing item, high byte first (R44, R45, R71). -/
def ListingItem.bytes : ListingItem → List Byte
  | .instr i => wordBytes (encode i)
  | .dw w => wordBytes w
  | .db b => [b]

/-- The program image of a listing: its items' bytes in order (R45). -/
def image (items : List ListingItem) : List Byte := items.flatMap ListingItem.bytes

end Sys2Proof
end

