-- ==== Sys2Proof/Config.lean ====
section
/-! DEFINITION. The configuration record of 00_scope.md rule R5 and the free value of rule R113. The default VALUES of the
parameters stand in Machine/Params.lean. -/

namespace Sys2Proof

/-- `SHIFT_SOURCE` (R5, R109, R111, D8): which register SHR and SHL shift. -/
inductive ShiftSource
  /-- The default: `V[y]` is shifted into `V[x]`. -/
  | vy
  /-- The other reading: `V[x]` is shifted in place and `y` is ignored. -/
  | vx
  deriving DecidableEq, Repr

/-- `STACK_POLICY` (R5, D3 to D5). The spec defines one value and no other. -/
inductive StackPolicy
  /-- Record the misuse in `ERR` and go on (R92, R94). -/
  | flagAndContinue
  deriving DecidableEq, Repr

/-- `WAITKEY_PRIORITY` (R5, R143, D11). The spec names one value. -/
inductive WaitKeyPriority
  /-- LD Vx,K reports the least pressed key number. -/
  | lowestIndex
  deriving DecidableEq, Repr

/-- `FONT_DATA` (R18): 80 bytes, sixteen glyphs of five bytes. -/
abbrev Font := Vector Byte 80

/-- The parameters R5 marks 'configuration'. A machine keeps one configuration for ever: State holds it in `cfg` (log 1). -/
structure Config where
  /-- `FONT_DATA` (R18, D15). -/
  fontData : Font
  /-- `SHIFT_SOURCE` (R109, R111, D8). -/
  shiftSource : ShiftSource
  /-- `STACK_POLICY` (R92, R94, D3 to D5). -/
  stackPolicy : StackPolicy
  /-- `ADDI_SETS_VF` (R121, D6). -/
  addISetsVF : Bool
  /-- `FONT_WRITE_PROTECT` (R42, D16). -/
  fontWriteProtect : Bool
  /-- `WAITKEY_PRIORITY` (R143, D11). -/
  waitKeyPriority : WaitKeyPriority
  deriving DecidableEq, Repr

/-- FREE VALUE (R22, R113, D14, log 2). The byte that arrives on the input `rnd` at the k-th draw for which the host has not
already settled one. It has no body: nothing can be proved of it, so a claim holds whatever bytes arrive. -/
opaque Config.freeRnd : Nat → Byte

end Sys2Proof
end

