-- ==== Sys2Proof/Machine/Params.lean ====
section
/-! DEFINITION. The constants and the default parameter values of 00_scope.md rule R5 and the default font of 10_state.md rule R18. -/

namespace Sys2Proof.Machine

/-- `MEM_SIZE`: 4096 bytes (R5, R40). -/
def memSize : Nat := 4096
/-- `FONT_BASE`: the font glyph table starts at 0x050 (R5, R18). -/
def fontBase : Nat := 0x050
/-- The first address after the font glyph table, whose last byte is at 0x09F (R5 `FONT_END`, R18). -/
def fontLimit : Nat := 0x0A0
/-- `PROG_BASE`: a program image starts at 0x200 (R5, R45, R163). -/
def progBase : Nat := 0x200
/-- `PROG_MAX`: a program image has at most 3584 bytes (R5, R163). -/
def progMax : Nat := 3584
/-- `RESET_PC` (R5, R12, R24). -/
def resetPC : Word := 0x0200

/-- The default `FONT_DATA` (R18, D15): the sixteen glyphs in the order of their digits, five rows each, top row first. The spec
supplies these bytes from general knowledge (log 5). -/
def defaultFont : Font :=
  #v[0xF0, 0x90, 0x90, 0x90, 0xF0,
     0x20, 0x60, 0x20, 0x20, 0x70,
     0xF0, 0x10, 0xF0, 0x80, 0xF0,
     0xF0, 0x10, 0xF0, 0x10, 0xF0,
     0x90, 0x90, 0xF0, 0x10, 0x10,
     0xF0, 0x80, 0xF0, 0x10, 0xF0,
     0xF0, 0x80, 0xF0, 0x90, 0xF0,
     0xF0, 0x10, 0x20, 0x40, 0x40,
     0xF0, 0x90, 0xF0, 0x90, 0xF0,
     0xF0, 0x90, 0xF0, 0x10, 0xF0,
     0xF0, 0x90, 0xF0, 0x90, 0x90,
     0xE0, 0x90, 0xE0, 0x90, 0xE0,
     0xF0, 0x80, 0x80, 0x80, 0xF0,
     0xE0, 0x90, 0x90, 0x90, 0xE0,
     0xF0, 0x80, 0xF0, 0x80, 0xF0,
     0xF0, 0x80, 0xF0, 0x80, 0x80]

/-- The default configuration (R5, D6, D8, D11, D15, D16). -/
def defaultConfig : Config where
  fontData := defaultFont
  shiftSource := .vy
  stackPolicy := .flagAndContinue
  addISetsVF := false
  fontWriteProtect := false
  waitKeyPriority := .lowestIndex

end Sys2Proof.Machine
end

