-- ==== Sys2Proof/Machine/State.lean ====
section
/-! DEFINITION. The machine's state (10_state.md rules R10 to R23), the reasons a step can stop, and the state after reset
(rule R24). -/

namespace Sys2Proof.Machine

/-- The faults of the machine: none. "A cycle cannot fail, fault, trap, block or be refused" (40_cycle.md R86; 60_exceptions.md
R154), so no constructor exists and no step can answer one (log 11). -/
inductive Fault
  deriving DecidableEq, Repr

/-- What the model refuses. `step` and the meanings of the 34 instructions raise none of these. -/
inductive Refusal
  /-- The instruction of this mnemonic has no meaning yet. Raised by an arm of `exec` only; no arm raises it now. Safe. -/
  | notModelled (mnemonic : String)
  /-- Two of the requests `step`, `keys_we`, `ld_we`, `disp_ack`, `disp_clr` at one clock edge, or one of the last four beside
  `rst`: "the spec gives no meaning to an edge that breaks it" (60_exceptions.md R166, R171, U18). Raised by `clockEdge`. Safe. -/
  | overlappingRequests
  /-- A byte at the loader port below 0x200, which is a byte of no H_LOAD (60_exceptions.md R163, R166, R171). Raised by
  `clockEdge`. Safe. -/
  | loaderBelowProgBase
  deriving DecidableEq, Repr

/-- The display plane: 32 rows of 64 one-bit pixels (R17, R133). Bit `x` of row `y` is `DISP[y][x]`. -/
abbrev Display := Vector (BitVec 64) 32

/-- The memory as a list of (address, byte) pairs; `Memory.wf` (Machine/Ops.lean) is its canonical form. -/
abbrev Memory := List Host.Cell

/-- The complete state of the core (R23), with three fields of the model's own at the end (`cfg`, `rndIn`, `draws`). -/
structure State where
  /-- `V[0]` to `V[15]`, the general registers (R10); `V[15]` is VF (R11). -/
  v : Vector Byte 16
  /-- `PC`, the program counter, all 16 bits of it (R12). -/
  pc : Word
  /-- `I`, the index register, all 16 bits of it (R13). -/
  i : Word
  /-- `STACK[0]` to `STACK[15]`, the return addresses (R14). -/
  stack : Vector Word 16
  /-- `SP`, the number of stack entries in use, 0 to 16 (R14, R15, R26). -/
  sp : Fin 17
  /-- `DT`, the delay timer (R16). -/
  dt : Byte
  /-- `ST`, the sound timer (R16). -/
  st : Byte
  /-- `MEM`, main memory (R17, R40): the bytes that differ from their reset content. -/
  mem : Memory
  /-- `DISP`, the display plane (R17). -/
  disp : Display
  /-- `DIRTY`, "changed since last read" (R19). -/
  dirty : Bool
  /-- `KEY`, the key vector; bit `k` is key `k` (R20). -/
  key : BitVec 16
  /-- `ERR`: bit 0 is OVF, bit 1 is UNF (R21). -/
  err : BitVec 2
  /-- The model's own: the configuration of the machine (R5, log 1). Nothing changes it. -/
  cfg : Config
  /-- The model's own: the bytes already settled for the coming draws from the input `rnd` (R22, R113, log 2). -/
  rndIn : List Byte
  /-- The model's own: how many free bytes have been drawn from the input `rnd` (R113, log 2). -/
  draws : Nat
  deriving DecidableEq, Repr

/-- The state after reset of a machine with configuration `c` (R24). Memory lists nothing: every byte is at its reset content,
the font of `c` at 0x050 to 0x09F and zero elsewhere (`Memory.resetByte`). -/
def State.resetWith (c : Config) : State where
  v := Vector.replicate 16 0
  pc := resetPC
  i := 0
  stack := Vector.replicate 16 0
  sp := 0
  dt := 0
  st := 0
  mem := []
  disp := Vector.replicate 32 0
  dirty := false
  key := 0
  err := 0
  cfg := c
  rndIn := []
  draws := 0

/-- The machine right after reset, with the default parameters of R5 (R24, R180). -/
def State.reset : State := State.resetWith defaultConfig

end Sys2Proof.Machine
end

