-- ==== Sys2Proof/Machine/Ops.lean ====
section
/-! DEFINITION. The shared operations over memory, registers, stack, display, timers and the random input. Every read and write of
a piece of state goes through here. The hardware has no exception to take and none to return from (60_exceptions.md R154, R158,
R159); its only reaction to misuse is `recordOverflow` and `recordUnderflow`. -/

namespace Sys2Proof.Machine

/-! ## Memory (20_memory.md) -/

/-- `trunc_12(base + k)`: each byte's address is reduced to 12 bits separately, at the access (R41, R54, R123). -/
def byteAddr (base : Word) (k : Nat) : Addr := (base + BitVec.ofNat 16 k).setWidth 12

/-- What a byte of memory holds after reset: `FONT_DATA` at 0x050 to 0x09F, zero elsewhere (R18, R24, R48, R56). -/
def Memory.resetByte (font : Font) (a : Nat) : Byte :=
  if h : fontBase ≤ a ∧ a < fontLimit then
    font[a - fontBase]'(by simp only [fontBase, fontLimit] at h ⊢; omega)
  else 0

/-- The listed byte of an address. -/
def Memory.find : Memory → Nat → Option Byte
  | [], _ => none
  | (a', b) :: rest, a => if a = a' then some b else Memory.find rest a

/-- Read one byte: the listed one, else the reset content (R40, R41, R56). -/
def Memory.read (font : Font) (m : Memory) (a : Nat) : Byte := (Memory.find m a).getD (Memory.resetByte font a)

/-- Put a pair before the first pair of a higher address. -/
def Memory.insert : Memory → Nat → Byte → Memory
  | [], a, b => [(a, b)]
  | c :: rest, a, b => if a < c.1 then (a, b) :: c :: rest else c :: Memory.insert rest a b

/-- Write one byte (R42) and keep the canonical form: a byte equal to the reset content is not listed. -/
def Memory.write (font : Font) (m : Memory) (a : Nat) (b : Byte) : Memory :=
  if b = Memory.resetByte font a then m.filter (fun c => c.1 != a)
  else Memory.insert (m.filter (fun c => c.1 != a)) a b

/-- The canonical form: addresses strictly rising, each below 4096, and no byte equal to its reset content. -/
abbrev Memory.wf (font : Font) (m : Memory) : Prop :=
  m.Pairwise (fun c d => c.1 < d.1) ∧ ∀ c ∈ m, c.1 < memSize ∧ c.2 ≠ Memory.resetByte font c.1

/-- `MEM[a]`. -/
def State.readByte (s : State) (a : Addr) : Byte := Memory.read s.cfg.fontData s.mem a.toNat

/-- `MEM[a] <- b`, whoever writes. -/
def State.pokeByte (s : State) (a : Addr) (b : Byte) : State :=
  { s with mem := Memory.write s.cfg.fontData s.mem a.toNat b }

/-- Is the address in the font glyph table, 0x050 to 0x09F (R18)? -/
def inFont (a : Addr) : Bool := decide (fontBase ≤ a.toNat) && decide (a.toNat < fontLimit)

/-- `MemWrite` of one byte by an instruction (R42): with `FONT_WRITE_PROTECT` a store into the font table leaves the byte
unchanged (D16). -/
def State.storeByte (s : State) (a : Addr) (b : Byte) : State :=
  if s.cfg.fontWriteProtect && inFont a then s else s.pokeByte a b

/-- `MemWrite(base + k, bytes)` in ascending order (R42, R123). -/
def State.storeBytes (s : State) (base : Word) (k : Nat) : List Byte → State
  | [] => s
  | b :: bs => State.storeBytes (s.storeByte (byteAddr base k) b) base (k + 1) bs

/-- `MemRead(base, n)` (R41). -/
def State.loadBytes (s : State) (base : Word) (n : Nat) : List Byte :=
  (List.range n).map fun k => s.readByte (byteAddr base k)

/-- Bytes placed from outside the core at consecutive addresses (R45, R163). -/
def State.placeBytes (s : State) (a : Nat) : List Byte → State
  | [] => s
  | b :: bs => State.placeBytes (s.pokeByte (BitVec.ofNat 12 a) b) (a + 1) bs

/-- Instruction fetch: the byte at `PC` is the high byte, the byte at `PC + 1` the low byte (R43, R44, R81). It changes nothing. -/
def State.fetchWord (s : State) : Word := s.readByte (byteAddr s.pc 0) ++ s.readByte (byteAddr s.pc 1)

/-- Store a word where the next cycle fetches it. -/
def State.placeWord (s : State) (w : Word) : State :=
  (s.pokeByte (byteAddr s.pc 0) (highByte w)).pokeByte (byteAddr s.pc 1) (lowByte w)

/-! ## Registers (10_state.md) -/

/-- `V[r]` (R7, R10). -/
def State.reg (s : State) (r : Reg) : Byte := s.v[r.val]

/-- `V[r] <- b` (R7, R10): no register is hard-wired. -/
def State.setReg (s : State) (r : Reg) (b : Byte) : State := { s with v := s.v.set r.val b }

/-- `V[k] <- bytes[0]`, `V[k+1] <- bytes[1]`, … in ascending order (R126). -/
def State.setRegs (s : State) (k : Nat) : List Byte → State
  | [] => s
  | b :: bs => State.setRegs (s.setReg (Fin.ofNat 16 k) b) (k + 1) bs

/-- `V[0]` to `V[x]`, `x` included (R125). -/
def State.regsUpTo (s : State) (x : Reg) : List Byte := (List.range (x.val + 1)).map fun k => s.reg (Fin.ofNat 16 k)

/-- `PC <- w`, all 16 bits (R12). -/
def State.setPc (s : State) (w : Word) : State := { s with pc := w }

/-- `PC <- trunc_16(PC + 2)`, the normal advance (R12, R85). -/
def State.advance (s : State) : State := s.setPc (s.pc + 2)

/-- `PC <- c ? trunc_16(PC + 4) : trunc_16(PC + 2)`, the skips (R85). -/
def State.skipIf (s : State) (c : Bool) : State := s.setPc (if c then s.pc + 4 else s.pc + 2)

/-- `I <- w`, all 16 bits (R13). -/
def State.setIndex (s : State) (w : Word) : State := { s with i := w }

/-- The result to `V[x]`, then the flag to VF: with `x` = 15 the flag is what stays (R11, R83, R102, D9). -/
def State.setRegFlag (s : State) (x : Reg) (result flag : Byte) : State := (s.setReg x result).setReg vf flag

/-! ## Call stack and its errors -/

/-- `ERR[0]`, OVF (R21). -/
def State.ovf (s : State) : Bool := s.err.getLsbD 0
/-- `ERR[1]`, UNF (R21). -/
def State.unf (s : State) : Bool := s.err.getLsbD 1

/-- CALL on a full stack: `ERR[0] <- 1`, sticky (R21, R92, D3, D5). -/
def State.recordOverflow (s : State) : State :=
  match s.cfg.stackPolicy with
  | .flagAndContinue => { s with err := s.err ||| 0b01 }

/-- RET on an empty stack: `ERR[1] <- 1`, sticky (R21, R94, D4, D5). -/
def State.recordUnderflow (s : State) : State :=
  match s.cfg.stackPolicy with
  | .flagAndContinue => { s with err := s.err ||| 0b10 }

/-- Push a return address: `STACK[SP] <- w`, then `SP <- SP + 1` (R14, R91); on a full stack the push is omitted and recorded
(R92). -/
def State.push (s : State) (w : Word) : State :=
  if h : s.sp.val < 16 then { s with stack := s.stack.set s.sp.val w, sp := ⟨s.sp.val + 1, by omega⟩ }
  else s.recordOverflow

/-- Pop a return address: `SP <- SP - 1`, then `STACK[SP]`; the entry stays where it was (R14, R93, D23). None when the stack is
empty. -/
def State.pop (s : State) : Option (Word × State) :=
  if h : 0 < s.sp.val then
    some (s.stack[s.sp.val - 1]'(by have := s.sp.isLt; omega), { s with sp := ⟨s.sp.val - 1, by have := s.sp.isLt; omega⟩ })
  else none

/-! ## Display (44_display.md) -/

/-- `DISP[y][x]` (R133). -/
def Display.pixel (d : Display) (y : Fin 32) (x : Fin 64) : Bool := d[y.val].getLsbD x.val

/-- `DISP[y][x] <- DISP[y][x] ^ 1` (R131). -/
def Display.toggle (d : Display) (y : Fin 32) (x : Fin 64) : Display :=
  d.set y.val (d[y.val] ^^^ BitVec.twoPow 64 x.val)

/-- All 2048 bits 0 (R24, R130). -/
def Display.blank : Display := Vector.replicate 32 0

/-- A new display content; `DIRTY` is set on every such write, changed or not (R19, R130, R131, D22). -/
def State.setDisplay (s : State) (d : Display) : State := { s with disp := d, dirty := true }

/-! ## Timers (60_exceptions.md R150 to R153) -/

/-- `DT <- b` (R144). -/
def State.setDT (s : State) (b : Byte) : State := { s with dt := b }

/-- `ST <- b` (R145). -/
def State.setST (s : State) (b : Byte) : State := { s with st := b }

/-- One less, but never below 0 (R16, R151). -/
def countDown (b : Byte) : Byte := if b = 0 then 0 else b - 1

/-- Step 4 of every cycle: both timers count down once (R84, R151). -/
def State.tick (s : State) : State := { s with dt := countDown s.dt, st := countDown s.st }

/-- The output `sound_active` = (`ST != 0`) (R153). -/
def State.soundActive (s : State) : Bool := s.st != 0

/-! ## Keys and the random input -/

/-- `KEY[k]` (R20). -/
def State.keyDown (s : State) (k : Fin 16) : Bool := s.key.getLsbD k.val

/-- The byte on the input `rnd` at the next draw (R113): the one the host has settled, else a free one (R22, D14, log 2). -/
def State.nextRnd (s : State) : Byte :=
  match s.rndIn with
  | r :: _ => r
  | [] => Config.freeRnd s.draws

/-- The draw is over: another draw gets another byte (R22: no two draws are related). -/
def State.consumeRnd (s : State) : State :=
  match s.rndIn with
  | _ :: rs => { s with rndIn := rs }
  | [] => { s with draws := s.draws + 1 }

/-! ## The end of a cycle -/

/-- Steps 3 and 4 together: the timer tick after the execute step, in every cycle (R80, R84). -/
def endCycle : Host.Outcome State Fault Refusal → Host.Outcome State Fault Refusal
  | .next s => .next s.tick
  | .fault r => .fault r
  | .refused r => .refused r

end Sys2Proof.Machine
end

