-- ==== Sys2Proof/Machine/Operands.lean ====
section
/-! DEFINITION. The operand forms of rules R62, R123, R146 and the values instructions compute from their operands. -/

namespace Sys2Proof.Machine

/-- `zext_16(nnn)`: an absolute address, never scaled, never relative to `PC` (R62). -/
def target (nnn : Addr) : Word := nnn.setWidth 16

/-- `trunc_16(nnn + V[0])`, the target of JP V0 (R54, R99). -/
def offsetTarget (nnn : Addr) (b : Byte) : Word := nnn.setWidth 16 + b.setWidth 16

/-- `trunc_16(I + V[x])` (R54, R121). -/
def indexPlus (i : Word) (b : Byte) : Word := i + b.setWidth 16

/-- `trunc_16(I + x + 1)`: `I` after a register transfer (R54, R125, R126). -/
def indexAfter (i : Word) (x : Reg) : Word := i + BitVec.ofNat 16 (x.val + 1)

/-- `0x050 + 5 * V[x]`: the address of a font glyph, the whole 8-bit value taken (R122, D25). -/
def glyphAddr (b : Byte) : Word := BitVec.ofNat 16 fontBase + 5 * b.setWidth 16

/-- The source of SHR and SHL: `V[y]`, or `V[x]` when `SHIFT_SOURCE` is `VX` (R109, R111, D8). -/
def State.shiftOperand (s : State) (x y : Reg) : Byte :=
  match s.cfg.shiftSource with
  | .vy => s.reg y
  | .vx => s.reg x

/-- `V[x][3:0]`: the key number SKP and SKNP take from a register (R146, D10). -/
def keyNumber (b : Byte) : Fin 16 := (b.extractLsb' 0 4).toFin

/-- The key LD Vx,K reports: the least pressed one, none when no key is down (R143, D11). -/
def State.waitedKey (s : State) : Option Nat :=
  match s.cfg.waitKeyPriority with
  | .lowestIndex => (List.range 16).find? fun k => s.key.getLsbD k

/-- The hundreds, tens and ones digits of a byte, each a whole byte (R124). -/
def decimalDigits (b : Byte) : List Byte := [b / 100, (b / 10) % 10, b % 10]

/-- `(vx + col) mod 64`: the display column of sprite column `col` (R131, R132). -/
def pixelColumn (vx : Byte) (col : Nat) : Fin 64 := Fin.ofNat 64 (vx.toNat + col)

/-- `(vy + row) mod 32`: the display row of sprite row `row` (R131, R132). -/
def pixelRow (vy : Byte) (row : Nat) : Fin 32 := Fin.ofNat 32 (vy.toNat + row)

/-- `b[7 - col]`: bit 7 of a sprite byte is the leftmost pixel (R131, R133). -/
def spriteBit (b : Byte) (col : Nat) : Bool := b.getLsbD (7 - col)

end Sys2Proof.Machine
end

