-- ==== Sys2Proof/Machine/Flags.lean ====
section
/-! DEFINITION. What each flag-writing instruction writes to VF (10_state.md rule R11; 42_alu.md rule R112). The hardware has no
other flag. -/

namespace Sys2Proof.Machine

/-- A flag as the byte VF receives: 1 or 0 (R11). -/
def flagByte (c : Bool) : Byte := if c then 1 else 0

/-- ADD Vx,Vy: 1 exactly when the sum exceeds 255 (R107, R112). -/
def carryFlag (a b : Byte) : Byte := flagByte (decide (a.toNat + b.toNat > 255))

/-- `a - b`: the not-borrow, 1 exactly when `a >= b` (R108, R110, R112). -/
def notBorrowFlag (a b : Byte) : Byte := flagByte (decide (b.toNat ≤ a.toNat))

/-- SHR: old bit 0 of the source (R109). -/
def shrFlag (src : Byte) : Byte := flagByte (src.getLsbD 0)

/-- SHL: old bit 7 of the source (R111). -/
def shlFlag (src : Byte) : Byte := flagByte (src.getLsbD 7)

/-- OR, AND, XOR: 0 always (R104 to R106). -/
def logicFlag : Byte := flagByte false

/-- DRW: the collision flag (R131). -/
def collisionFlag (hit : Bool) : Byte := flagByte hit

/-- ADD I,Vx with `ADDI_SETS_VF` = `true` only: 1 when `I + V[x]` exceeds 0x0FFF (D6). -/
def indexOverflowFlag (i : Word) (b : Byte) : Byte := flagByte (decide (i.toNat + b.toNat > 0x0FFF))

end Sys2Proof.Machine
end

