-- ==== Sys2Proof/Machine/Control.lean ====
section
/-! DEFINITION. 41_control.md: JP, CALL, RET, the four register skips, JP V0; and the execute step of an unrecognised word
(30_encoding.md rule R66). Each meaning is the EXECUTE step alone; the timer tick follows in `step` (R80). -/

namespace Sys2Proof.Machine

/-- An unrecognised word is a no-operation: `PC <- trunc_16(PC + 2)` and nothing else (R66). -/
def execUnrecognised (s : State) : Host.Outcome State Fault Refusal := .next s.advance

/-- R90. -/
def execJp (nnn : Addr) (s : State) : Host.Outcome State Fault Refusal := .next (s.setPc (target nnn))

/-- R91 (stack not full), R92 (stack full): the jump is taken either way; what is pushed is `trunc_16(PC + 2)` (D2). -/
def execCall (nnn : Addr) (s : State) : Host.Outcome State Fault Refusal := .next ((s.push (s.pc + 2)).setPc (target nnn))

/-- R93 (stack not empty: no advance after the pop), R94 (stack empty: recorded, `PC + 2`). -/
def execRet (s : State) : Host.Outcome State Fault Refusal :=
  match s.pop with
  | some (w, t) => .next (t.setPc w)
  | none => .next s.recordUnderflow.advance

/-- R95. -/
def execSeImm (x : Reg) (nn : Byte) (s : State) : Host.Outcome State Fault Refusal := .next (s.skipIf (s.reg x == nn))

/-- R96. -/
def execSneImm (x : Reg) (nn : Byte) (s : State) : Host.Outcome State Fault Refusal := .next (s.skipIf (s.reg x != nn))

/-- R97. -/
def execSeReg (x y : Reg) (s : State) : Host.Outcome State Fault Refusal := .next (s.skipIf (s.reg x == s.reg y))

/-- R98. -/
def execSneReg (x y : Reg) (s : State) : Host.Outcome State Fault Refusal := .next (s.skipIf (s.reg x != s.reg y))

/-- R99: the offset register is always V0. -/
def execJpV0 (nnn : Addr) (s : State) : Host.Outcome State Fault Refusal := .next (s.setPc (offsetTarget nnn (s.reg v0)))

end Sys2Proof.Machine
end

