-- ==== Sys2Proof/Machine/Graphics.lean ====
section
/-! DEFINITION. 44_display.md: CLS, and DRW with the sprite unit and the collision detector. -/

namespace Sys2Proof.Machine

/-- What DRW works on: the display and the collision so far. -/
structure Canvas where
  disp : Display
  hit : Bool
  deriving DecidableEq, Repr

/-- One set sprite pixel: note the collision, then toggle (R131). Column and row are reduced separately (R132 (a)). -/
def drawPixel (vx vy : Byte) (row col : Nat) (c : Canvas) : Canvas where
  disp := Display.toggle c.disp (pixelRow vy row) (pixelColumn vx col)
  hit := c.hit || Display.pixel c.disp (pixelRow vy row) (pixelColumn vx col)

/-- One sprite byte: columns 0 to 7, bit 7 first (R131). -/
def drawRow (vx vy : Byte) (row : Nat) (b : Byte) (c : Canvas) : Canvas :=
  (List.range 8).foldl (fun c col => if spriteBit b col then drawPixel vx vy row col c else c) c

/-- The sprite's bytes, top row first, from row `row` on (R131). -/
def drawRows (vx vy : Byte) (row : Nat) : List Byte → Canvas → Canvas
  | [], c => c
  | b :: bs, c => drawRows vx vy (row + 1) bs (drawRow vx vy row b c)

/-- The canvas after DRW: `n` sprite bytes from `I`, at column `V[x]`, row `V[y]` (R131). -/
def State.drawn (s : State) (x y : Reg) (n : Fin 16) : Canvas :=
  drawRows (s.reg x) (s.reg y) 0 (s.loadBytes s.i n.val) ⟨s.disp, false⟩

/-- R130. -/
def execCls (s : State) : Host.Outcome State Fault Refusal := .next (s.setDisplay Display.blank).advance

/-- R131: the coordinates are read before VF is written; VF and `DIRTY` are written on every execution. -/
def execDrw (x y : Reg) (n : Fin 16) (s : State) : Host.Outcome State Fault Refusal :=
  .next ((s.setDisplay (s.drawn x y n).disp).setReg vf (collisionFlag (s.drawn x y n).hit)).advance

end Sys2Proof.Machine
end

