-- ==== Sys2Proof/Machine/Index.lean ====
section
/-! DEFINITION. 43_index_memory.md: the index register and the memory instructions. -/

namespace Sys2Proof.Machine

/-- R120. -/
def execLdI (nnn : Addr) (s : State) : Host.Outcome State Fault Refusal := .next (s.setIndex (target nnn)).advance

/-- R121: VF is not written, except with `ADDI_SETS_VF` = `true`, where the flag is written after `I` (D6). -/
def execAddI (x : Reg) (s : State) : Host.Outcome State Fault Refusal :=
  if s.cfg.addISetsVF then
    .next ((s.setIndex (indexPlus s.i (s.reg x))).setReg vf (indexOverflowFlag s.i (s.reg x))).advance
  else .next (s.setIndex (indexPlus s.i (s.reg x))).advance

/-- R122. -/
def execLdF (x : Reg) (s : State) : Host.Outcome State Fault Refusal := .next (s.setIndex (glyphAddr (s.reg x))).advance

/-- R124: hundreds, tens, ones to `I`, `I + 1`, `I + 2`; `I` is unchanged. -/
def execLdB (x : Reg) (s : State) : Host.Outcome State Fault Refusal :=
  .next (s.storeBytes s.i 0 (decimalDigits (s.reg x))).advance

/-- R125: `V[0]` to `V[x]` to memory, then `I <- trunc_16(I + x + 1)`. -/
def execLdMemVx (x : Reg) (s : State) : Host.Outcome State Fault Refusal :=
  .next ((s.storeBytes s.i 0 (s.regsUpTo x)).setIndex (indexAfter s.i x)).advance

/-- R126: `V[0]` to `V[x]` from memory, then `I <- trunc_16(I + x + 1)`. -/
def execLdVxMem (x : Reg) (s : State) : Host.Outcome State Fault Refusal :=
  .next ((s.setRegs 0 (s.loadBytes s.i (x.val + 1))).setIndex (indexAfter s.i x)).advance

end Sys2Proof.Machine
end

