-- ==== Sys2Proof/Machine/Keys.lean ====
section
/-! DEFINITION. 45_keys_timers.md: the key skips, the key wait and the timer instructions. -/

namespace Sys2Proof.Machine

/-- R140, R146. -/
def execSkp (x : Reg) (s : State) : Host.Outcome State Fault Refusal := .next (s.skipIf (s.keyDown (keyNumber (s.reg x))))

/-- R141, R146. -/
def execSknp (x : Reg) (s : State) : Host.Outcome State Fault Refusal := .next (s.skipIf (!s.keyDown (keyNumber (s.reg x))))

/-- R142: `DT` before this cycle's tick. -/
def execLdVxDT (x : Reg) (s : State) : Host.Outcome State Fault Refusal := .next (s.setReg x s.dt).advance

/-- R143: with no key down `PC` keeps its value, so the next cycle executes the same word again. -/
def execLdVxK (x : Reg) (s : State) : Host.Outcome State Fault Refusal :=
  match s.waitedKey with
  | some k => .next (s.setReg x (BitVec.ofNat 8 k)).advance
  | none => .next (s.setPc s.pc)

/-- R144: the tick of the same cycle then counts the new value down. -/
def execLdDT (x : Reg) (s : State) : Host.Outcome State Fault Refusal := .next (s.setDT (s.reg x)).advance

/-- R145. -/
def execLdST (x : Reg) (s : State) : Host.Outcome State Fault Refusal := .next (s.setST (s.reg x)).advance

end Sys2Proof.Machine
end

