-- ==== Sys2Proof/Machine/Step.lean ====
section
/-! DEFINITION. One cycle: fetch, decode, execute, timer tick (40_cycle.md rules R80 to R84). -/

namespace Sys2Proof.Machine

/-- The cycle of R80: the word at `PC` is fetched (R81) and decoded (R82), its instruction executed (R83), or the no-operation of an
unrecognised word (R66), and then the timers tick (R84). -/
def step (s : State) : Host.Outcome State Fault Refusal :=
  match decode s.fetchWord with
  | .ok i => endCycle (exec i s)
  | .error _ => endCycle (execUnrecognised s)

/-- The state with an instruction word stored where `step` fetches next, the two bytes at `PC` and `PC + 1`; a program comes to
run from reset by being loaded from outside in the same way (R163, R182, log 9). -/
def State.withFetchWord (s : State) (nbits w : Nat) : State := s.placeWord (BitVec.ofNat 16 (w % 2 ^ nbits))

end Sys2Proof.Machine
end

