-- ==== Sys2Proof/Machine/HostInterface.lean ====
section
/-! DEFINITION. 60_exceptions.md section 5: the host operations H_RESET, H_LOAD, H_STEP, H_KEYS_WRITE, H_KEYS_READ, H_DISPLAY_READ,
H_DISPLAY_CLEAR, the input `rnd`, and the ports of rule R166. They act only between cycles (20_memory.md rule R55). -/

namespace Sys2Proof.Machine

/-! ## The operations -/

/-- H_RESET: every item of state to its reset value (R165, R180, R181). The configuration is the machine's and stays; the input
`rnd` is outside the core and is not rewound (R22, log 6). -/
def hReset (s : State) : State := { State.resetWith s.cfg with rndIn := s.rndIn, draws := s.draws }

/-- What H_LOAD answers: the new state, or `LoadError`, which is a reply to the host and no core state (R163). -/
inductive LoadResult
  | loaded (s : State)
  | loadError
  deriving DecidableEq, Repr

/-- H_LOAD: 1 to 3584 bytes go to 0x200 upward; any other length is a `LoadError` and nothing is written (R163, D20). -/
def hLoad (bytes : List Byte) (s : State) : LoadResult :=
  if bytes.length = 0 ∨ progMax < bytes.length then .loadError else .loaded (s.placeBytes progBase bytes)

/-- The whole key vector at once (R161, D30). -/
def latchKeys (keys : BitVec 16) (s : State) : State := { s with key := keys }

/-- The key vector in which exactly the keys of a set are pressed (R161). -/
def keysOf : List (Fin 16) → BitVec 16
  | [] => 0
  | k :: ks => BitVec.twoPow 16 k.val ||| keysOf ks

/-- H_KEYS_WRITE: `KEY[k] <- 1` for `k` in the set and `KEY[k] <- 0` for the others (R161). -/
def hKeysWrite (pressed : List (Fin 16)) (s : State) : State := latchKeys (keysOf pressed) s

/-- H_KEYS_READ: the sixteen bits of `KEY`; it changes nothing (R162). -/
def hKeysRead (s : State) : BitVec 16 := s.key

/-- Rows put together in row-major order, row 0 lowest: bit `64 * y + x` is column `x` of row `y` (R160, D19). -/
def gridOfRows : List (BitVec 64) → BitVec 2048
  | [] => 0
  | row :: rows => (gridOfRows rows <<< 64) ||| row.setWidth 2048

/-- `DISP` as the host sees it (R160). -/
def State.grid (s : State) : BitVec 2048 := gridOfRows s.disp.toList

/-- What H_DISPLAY_READ returns (R160). -/
structure DisplayReply where
  grid : BitVec 2048
  changed : Bool
  deriving DecidableEq, Repr

/-- The state after H_DISPLAY_READ: `DIRTY <- 0` and nothing else (R160). -/
def clearDirty (s : State) : State := { s with dirty := false }

/-- H_DISPLAY_READ: the grid and the dirty flag, which is then cleared (R160). -/
def hDisplayRead (s : State) : DisplayReply × State := (⟨s.grid, s.dirty⟩, clearDirty s)

/-- H_DISPLAY_CLEAR: every bit of `DISP` 0 and `DIRTY <- 1`, no advance of `PC`, no tick (R164, D21). -/
def hDisplayClear (s : State) : State := s.setDisplay Display.blank

/-- The host settles the byte of a coming draw (R113: "supplying the `rnd` sequence as an argument"; R171). -/
def hRndSupply (r : Byte) (s : State) : State := { s with rndIn := s.rndIn ++ [r] }

/-- H_STEP: exactly one cycle (R165). -/
def hStep (s : State) : Host.Outcome State Fault Refusal := step s

/-! ## The moves of the environment, one at a time (R55) -/

/-- What can happen to the core. -/
inductive HostMove
  | reset
  | load (bytes : List Byte)
  | step
  | keysWrite (pressed : List (Fin 16))
  | keysRead
  | displayRead
  | displayClear
  | rndSupply (r : Byte)
  deriving DecidableEq, Repr

/-- The state after a move; a failed load changes no state (R163). -/
def hostMove (m : HostMove) (s : State) : Host.Outcome State Fault Refusal :=
  match m with
  | .reset => .next (hReset s)
  | .load bytes =>
    match hLoad bytes s with
    | .loaded t => .next t
    | .loadError => .next s
  | .step => hStep s
  | .keysWrite pressed => .next (hKeysWrite pressed s)
  | .keysRead => .next s
  | .displayRead => .next (hDisplayRead s).2
  | .displayClear => .next (hDisplayClear s)
  | .rndSupply r => .next (hRndSupply r s)

/-! ## The ports (R166) -/

/-- The inputs at one active edge of `clk` (R166). -/
structure PortsIn where
  rst : Bool := false
  step : Bool := false
  keysWe : Bool := false
  keys : BitVec 16 := 0
  rnd : Byte := 0
  ldWe : Bool := false
  ldAddr : Addr := 0
  ldData : Byte := 0
  dispAck : Bool := false
  dispClr : Bool := false
  deriving DecidableEq, Repr

/-- The outputs (R153, R166). -/
structure PortsOut where
  disp : BitVec 2048
  dirty : Bool
  soundActive : Bool
  err : BitVec 2
  deriving DecidableEq, Repr

/-- The outputs in a state. There is deliberately none for `PC`, the registers or the stack (R166). -/
def outputs (s : State) : PortsOut := ⟨s.grid, s.dirty, s.soundActive, s.err⟩

/-- How many of the requests other than `rst` and `step` an edge holds. -/
def PortsIn.hostRequests (p : PortsIn) : Nat := p.keysWe.toNat + p.ldWe.toNat + p.dispAck.toNat + p.dispClr.toNat

/-- One cycle with the byte now on the input `rnd` (R165, R166): a byte no RND consumes is gone with the edge. -/
def stepWithRnd (r : Byte) (s : State) : Host.Outcome State Fault Refusal :=
  match step { s with rndIn := [r] } with
  | .next t => .next { t with rndIn := s.rndIn }
  | .fault f => .fault f
  | .refused f => .refused f

/-- One active clock edge (R166). With `rst`, `step` is ignored, as the port table says; any other pair of requests at one edge has
no meaning and is refused, and so is a loader byte below 0x200, which no H_LOAD has (R163, R171, log 8). With no request nothing
changes (R88). -/
def clockEdge (p : PortsIn) (s : State) : Host.Outcome State Fault Refusal :=
  if p.rst then
    if p.hostRequests = 0 then .next (hReset s) else .refused .overlappingRequests
  else if 1 < p.hostRequests + p.step.toNat then .refused .overlappingRequests
  else if p.step then stepWithRnd p.rnd s
  else if p.keysWe then .next (latchKeys p.keys s)
  else if p.ldWe then
    if p.ldAddr.toNat < progBase then .refused .loaderBelowProgBase else .next (s.pokeByte p.ldAddr p.ldData)
  else if p.dispAck then .next (clearDirty s)
  else if p.dispClr then .next (hDisplayClear s)
  else .next s

end Sys2Proof.Machine
end

