-- ==== Sys2Proof/Safety.lean ====
section
/-! DEFINITION. The terms claims use: the invariant, the clean run of 10_state.md rule R21, the end of a run of rule R192, what each
instruction may touch (rule R25), the program counter law (rule R85), the pixels of a sprite (rule R131), and reachability. -/

namespace Sys2Proof.Machine

/-- The model's invariant: memory is in its canonical form. The bounds of R26 (`SP` at most 16, bytes in bytes, words in words)
hold by the types of State. -/
abbrev State.Inv (s : State) : Prop := Memory.wf s.cfg.fontData s.mem

/-- Nothing has "gone wrong": no stack misuse since reset (R21). -/
abbrev State.Clean (s : State) : Prop := s.err = 0

/-- The end-of-run idiom: `PC` = `a` and the word at `a` is the jump to `a` (R192). A convention, not a mechanism. -/
def State.AtSelfJump (s : State) (a : Addr) : Prop := s.pc = a.setWidth 16 ∧ s.fetchWord = wordA 0x1 a

/-- The state of a run can come about: from a reset, by moves of the environment (R182, R171). -/
inductive Reachable : State → Prop
  | reset (c : Config) : Reachable (State.resetWith c)
  | move {s t : State} (m : HostMove) : Reachable s → hostMove m s = .next t → Reachable t

/-- The state an instruction may change besides `PC`, and besides the timer tick: a row of R25's matrix. -/
structure Touched where
  regs : Reg → Bool := fun _ => false
  index : Bool := false
  stack : Bool := false
  mem : Bool := false
  disp : Bool := false
  dirty : Bool := false
  dt : Bool := false
  st : Bool := false
  err : Bool := false
  rnd : Bool := false

/-- `V[x]` only. -/
def Touched.one (x : Reg) : Touched := { regs := fun r => r == x }
/-- `V[x]`, and VF as a flag. -/
def Touched.oneAndFlag (x : Reg) : Touched := { regs := fun r => r == x || r == vf }

/-- Everything not touched is unchanged; memory is compared byte by byte. `KEY` (R20, R161) and the configuration are touched by
nothing. -/
structure OnlyTouches (m : Touched) (s t : State) : Prop where
  regs : ∀ r, m.regs r = false → t.reg r = s.reg r
  index : m.index = false → t.i = s.i
  stack : m.stack = false → t.stack = s.stack ∧ t.sp = s.sp
  mem : m.mem = false → ∀ a, t.readByte a = s.readByte a
  disp : m.disp = false → t.disp = s.disp
  dirty : m.dirty = false → t.dirty = s.dirty
  dt : m.dt = false → t.dt = s.dt
  st : m.st = false → t.st = s.st
  err : m.err = false → t.err = s.err
  rnd : m.rnd = false → t.rndIn = s.rndIn ∧ t.draws = s.draws
  key : t.key = s.key
  cfg : t.cfg = s.cfg

/-- R25's matrix, row by row (with the VF column of ADD I,Vx when `ADDI_SETS_VF` is `true`, D6). -/
def touched (c : Config) : Instr → Touched
  | .cls => { disp := true, dirty := true }
  | .ret => { stack := true, err := true }
  | .jp _ => {}
  | .call _ => { stack := true, err := true }
  | .seImm _ _ => {}
  | .sneImm _ _ => {}
  | .seReg _ _ => {}
  | .ldImm x _ => Touched.one x
  | .addImm x _ => Touched.one x
  | .ldReg x _ => Touched.one x
  | .orReg x _ => Touched.oneAndFlag x
  | .andReg x _ => Touched.oneAndFlag x
  | .xorReg x _ => Touched.oneAndFlag x
  | .addReg x _ => Touched.oneAndFlag x
  | .subReg x _ => Touched.oneAndFlag x
  | .shr x _ => Touched.oneAndFlag x
  | .subn x _ => Touched.oneAndFlag x
  | .shl x _ => Touched.oneAndFlag x
  | .sneReg _ _ => {}
  | .ldI _ => { index := true }
  | .jpV0 _ => {}
  | .rnd x _ => { regs := fun r => r == x, rnd := true }
  | .drw _ _ _ => { regs := fun r => r == vf, disp := true, dirty := true }
  | .skp _ => {}
  | .sknp _ => {}
  | .ldVxDT x => Touched.one x
  | .ldVxK x => Touched.one x
  | .ldDT _ => { dt := true }
  | .ldST _ => { st := true }
  | .addI _ => { regs := fun r => c.addISetsVF && r == vf, index := true }
  | .ldF _ => { index := true }
  | .ldB _ => { mem := true }
  | .ldMemVx _ => { index := true, mem := true }
  | .ldVxMem x => { regs := fun r => decide (r ≤ x), index := true }

/-- R85's table: `PC` after the cycle of an instruction, from the state at its start. -/
def pcAfter (s : State) : Instr → Word
  | .jp nnn => nnn.setWidth 16
  | .call nnn => nnn.setWidth 16
  | .jpV0 nnn => BitVec.ofNat 16 (nnn.toNat + (s.reg 0).toNat)
  | .ret => if h : 0 < s.sp.val then s.stack[s.sp.val - 1]'(by have := s.sp.isLt; omega) else s.pc + 2
  | .seImm x nn => if s.reg x = nn then s.pc + 4 else s.pc + 2
  | .sneImm x nn => if s.reg x = nn then s.pc + 2 else s.pc + 4
  | .seReg x y => if s.reg x = s.reg y then s.pc + 4 else s.pc + 2
  | .sneReg x y => if s.reg x = s.reg y then s.pc + 2 else s.pc + 4
  | .skp x => if s.key.getLsbD ((s.reg x).toNat % 16) then s.pc + 4 else s.pc + 2
  | .sknp x => if s.key.getLsbD ((s.reg x).toNat % 16) then s.pc + 2 else s.pc + 4
  | .ldVxK _ => if s.key = 0 then s.pc else s.pc + 2
  | .cls | .ldImm _ _ | .addImm _ _ | .ldReg _ _ | .orReg _ _ | .andReg _ _ | .xorReg _ _ | .addReg _ _ | .subReg _ _
  | .shr _ _ | .subn _ _ | .shl _ _ | .ldI _ | .rnd _ _ | .drw _ _ _ | .ldVxDT _ | .ldDT _ | .ldST _ | .addI _ | .ldF _
  | .ldB _ | .ldMemVx _ | .ldVxMem _ => s.pc + 2

/-- The sprite of `DRW Vx, Vy, n` has a set bit that falls on the pixel of row `py`, column `px` (R131: every pixel is wrapped
separately, bit 7 of a byte is its leftmost pixel). -/
def State.spriteSets (s : State) (x y : Reg) (n : Fin 16) (py : Fin 32) (px : Fin 64) : Prop :=
  ∃ row col : Nat, row < n.val ∧ col < 8 ∧ ((s.reg x).toNat + col) % 64 = px.val ∧ ((s.reg y).toNat + row) % 32 = py.val ∧
    (s.readByte (byteAddr s.i row)).getLsbD (7 - col) = true

/-- A store of an instruction to this address takes effect: always, but for the font table with `FONT_WRITE_PROTECT` (R42, D16). -/
def State.storeLands (s : State) (a : Addr) : Prop :=
  s.cfg.fontWriteProtect = false ∨ a.toNat < 0x050 ∨ 0x09F < a.toNat

/-- Two states that differ at most in stack entries not in use (R14, D23). -/
structure SameButDeadStack (s t : State) : Prop where
  live : ∀ k (h : k < 16), k < s.sp.val → t.stack[k] = s.stack[k]
  rest : t = { s with stack := t.stack }

/-- Two states that differ at most in `ERR`, `DIRTY` and `ST`, the state no instruction reads (R19, R21, R145, R150). -/
def SameButUnread (s t : State) : Prop := t = { s with err := t.err, dirty := t.dirty, st := t.st }

end Sys2Proof.Machine
end

