-- ==== Sys2Proof/Certificates/Slice0/Obligations.lean ====
section
/-! DEFINITION. The statements about the model, in the order of OBLIGATIONS.json. Where a statement covers one instruction it says its
encoding, that its execute step always answers a next state, what that state holds, and that nothing else is touched. -/

open Sys2Proof Sys2Proof.Machine

/-! ## Encoding -/

/-- R61, R62, R64: every instruction is well-formed, and decoding its word gives it back with every operand. -/
def Obligations.DecodeInvertsEncode : Prop :=
  ∀ i : Instr, i.wellFormed = true ∧ decode (encode i) = .ok i

/-- R63, R64: a word that decodes to an instruction is that instruction's word: no bit is ignored. -/
def Obligations.EncodeInvertsDecode : Prop :=
  ∀ (w : Word) (i : Instr), decode w = .ok i → encode i = w

/-- R63, R64: "a word `w` is the instruction of a row exactly when `(w & mask) == match`"; no row matching, it is unrecognised; at
most one row matches. -/
def Obligations.DecoderFollowsOpcodeMap : Prop :=
  (∀ (w : Word) (r : OpRow), r ∈ opcodeTable → r.matches w = true → decode w = .ok (r.build w)) ∧
  (∀ w : Word, (∀ r ∈ opcodeTable, r.matches w = false) → ∃ e, decode w = .error e) ∧
  opcodeTable.Pairwise (fun r q => ∀ w : Word, ¬ (r.matches w = true ∧ q.matches w = true)) ∧
  opcodeTable.length = 34

/-- R67, R114: which words are unrecognised, group by group. -/
def Obligations.UnrecognisedWordsExactly : Prop :=
  ∀ w : Word,
    (decode w = .error .family0 ↔ fieldOp w = 0x0 ∧ w ≠ 0x00E0 ∧ w ≠ 0x00EE) ∧
    (decode w = .error .family5 ↔ fieldOp w = 0x5 ∧ fieldN w ≠ 0) ∧
    (decode w = .error .family9 ↔ fieldOp w = 0x9 ∧ fieldN w ≠ 0) ∧
    (decode w = .error .family8 ↔ fieldOp w = 0x8 ∧ fieldN w ∈ [(0x8 : Fin 16), 0x9, 0xA, 0xB, 0xC, 0xD, 0xF]) ∧
    (decode w = .error .familyE ↔ fieldOp w = 0xE ∧ fieldNN w ≠ 0x9E ∧ fieldNN w ≠ 0xA1) ∧
    (decode w = .error .familyF ↔
      fieldOp w = 0xF ∧ fieldNN w ∉ [(0x07 : Byte), 0x0A, 0x15, 0x18, 0x1E, 0x29, 0x33, 0x55, 0x65])

/-- R64: one word of each format, written out from its row. -/
def Obligations.WordsWrittenOut : Prop :=
  decode 0b0000000011101110#16 = .ok .ret ∧
  decode 0b0001101010111100#16 = .ok (.jp 0xABC) ∧
  decode 0b0011001100101010#16 = .ok (.seImm 3 0x2A) ∧
  decode 0b1000000100101110#16 = .ok (.shl 1 2) ∧
  decode 0b1101010110100111#16 = .ok (.drw 5 0xA 7) ∧
  decode 0b1110001110011110#16 = .ok (.skp 3) ∧
  decode 0b1111000101010101#16 = .ok (.ldMemVx 1)

/-- R70: a line assembles to an instruction exactly when it is that instruction's line, and a line assembles to some instruction
exactly when it is well-formed. -/
def Obligations.AssemblerRoundTrip : Prop :=
  (∀ (l : AsmLine) (i : Instr), assemble l = some i ↔ i.toAsm = l) ∧
  (∀ l : AsmLine, l.wellFormed = true ↔ ∃ i, assemble l = some i)

/-! ## The cycle -/

/-- R43, R81: the word fetched is `256 * hi + lo`, the two addresses reduced to 12 bits separately. -/
def Obligations.FetchIsTwoBytesBigEndian : Prop :=
  ∀ s : State, s.fetchWord.toNat =
    256 * (s.readByte (BitVec.ofNat 12 (s.pc.toNat % 4096))).toNat +
      (s.readByte (BitVec.ofNat 12 ((s.pc.toNat + 1) % 4096))).toNat

/-- R80, R82 to R84: when the bytes at `PC` decode to an instruction, the cycle is its execute step and then the timer tick. -/
def Obligations.StepRunsDecodedInstruction : Prop :=
  ∀ (s t : State) (i : Instr),
    decodeBytes (s.readByte (BitVec.ofNat 12 s.pc.toNat)) (s.readByte (BitVec.ofNat 12 (s.pc.toNat + 1))) = .ok i →
    exec i s = .next t →
    step s = .next { t with dt := if t.dt = 0 then 0 else t.dt - 1, st := if t.st = 0 then 0 else t.st - 1 }

/-- R66: an unrecognised word advances `PC` by 2, the timers tick, and nothing else changes. -/
def Obligations.UnrecognisedWordIsNoOperation : Prop :=
  ∀ (s : State) (e : Unrecognised), decode s.fetchWord = .error e →
    step s = .next { s with
      pc := s.pc + 2, dt := if s.dt = 0 then 0 else s.dt - 1, st := if s.st = 0 then 0 else s.st - 1 }

/-- R86: "A cycle cannot fail, fault, trap, block or be refused": from every state there is exactly a next one. -/
def Obligations.EveryCycleCompletes : Prop :=
  ∀ s : State, ∃ t, step s = .next t

/-- R85: `PC` after a cycle, for every instruction and every unrecognised word. -/
def Obligations.ProgramCounterLaw : Prop :=
  ∀ s : State, ∃ t, step s = .next t ∧
    t.pc = (match decode s.fetchWord with
      | .ok i => pcAfter s i
      | .error _ => s.pc + 2)

/-- R84, R151: the tick runs in every cycle, on the values the instruction leaves: the loaded one after LD DT,Vx and LD ST,Vx. -/
def Obligations.TimersTickEveryCycle : Prop :=
  ∀ s : State, ∃ t, step s = .next t ∧
    t.dt.toNat = (match decode s.fetchWord with
      | .ok (.ldDT x) => (s.reg x).toNat
      | _ => s.dt.toNat) - 1 ∧
    t.st.toNat = (match decode s.fetchWord with
      | .ok (.ldST x) => (s.reg x).toNat
      | _ => s.st.toNat) - 1

/-- R152: in a run without host moves (log 10), with no reload in between, `k` cycles take `k` from a timer, down to 0. -/
def Obligations.TimersCountCycles : Prop :=
  ∀ (k : Nat) (s : State),
    (∀ j < k, ∀ u, Sys2Proof.core.run j s = .next u → ∀ x, decode u.fetchWord ≠ .ok (.ldDT x) ∧ decode u.fetchWord ≠ .ok (.ldST x)) →
    ∃ t : State, Sys2Proof.core.run k s = .next t ∧ t.dt.toNat = s.dt.toNat - k ∧ t.st.toNat = s.st.toNat - k

/-- R25: the execute step of every instruction completes and touches nothing outside its row of the matrix, `PC` apart. -/
def Obligations.EveryInstructionKeepsItsRow : Prop :=
  ∀ (i : Instr) (s : State), ∃ t, exec i s = .next t ∧ OnlyTouches (touched s.cfg i) s t

/-! ## Invariants and whole-machine rules -/

/-- Every cycle keeps memory in its canonical form. -/
def Obligations.StepKeepsCanonicalMemory : Prop :=
  ∀ s t : State, s.Inv → step s = .next t → t.Inv

/-- Every host operation keeps memory in its canonical form. -/
def Obligations.HostMovesKeepCanonicalMemory : Prop :=
  ∀ (m : HostMove) (s t : State), s.Inv → m ≠ .step → hostMove m s = .next t → t.Inv

/-- Reset memory is in canonical form, in every configuration. -/
def Obligations.ResetMemoryIsCanonical : Prop :=
  State.reset.Inv ∧ ∀ c : Config, (State.resetWith c).Inv

/-- R24: the state after reset, item by item, for every configuration; the machine's own reset has the defaults of R5. -/
def Obligations.ResetState : Prop :=
  State.reset = State.resetWith defaultConfig ∧
  ∀ c : Config,
    (∀ r : Reg, (State.resetWith c).reg r = 0) ∧ (State.resetWith c).pc = 0x0200 ∧ (State.resetWith c).i = 0 ∧
    (State.resetWith c).sp = 0 ∧ (∀ k : Fin 16, (State.resetWith c).stack[k.val] = 0) ∧
    (State.resetWith c).dt = 0 ∧ (State.resetWith c).st = 0 ∧
    (∀ a : Addr, a.toNat < 0x050 → (State.resetWith c).readByte a = 0) ∧
    (∀ k : Fin 80, (State.resetWith c).readByte (BitVec.ofNat 12 (0x050 + k.val)) = c.fontData[k.val]) ∧
    (∀ a : Addr, 0x0A0 ≤ a.toNat → (State.resetWith c).readByte a = 0) ∧
    (∀ y x, (State.resetWith c).disp.pixel y x = false) ∧ (State.resetWith c).dirty = false ∧
    (∀ k : Fin 16, (State.resetWith c).keyDown k = false) ∧ (State.resetWith c).err = 0

/-- R26: the bounds, the stickiness of `ERR` and the timers' fall, under a cycle and under every host operation. -/
def Obligations.StateInvariantsUnderEveryMove : Prop :=
  ∀ (m : HostMove) (s : State), ∃ t, hostMove m s = .next t ∧
    t.sp.val ≤ 16 ∧ (∀ r : Reg, (t.reg r).toNat ≤ 255) ∧ t.dt.toNat ≤ 255 ∧ t.st.toNat ≤ 255 ∧
    t.pc.toNat ≤ 0xFFFF ∧ t.i.toNat ≤ 0xFFFF ∧ (∀ k : Fin 16, t.stack[k.val].toNat ≤ 0xFFFF) ∧
    (∀ a, (t.readByte a).toNat ≤ 255) ∧
    (m ≠ .reset → (s.ovf = true → t.ovf = true) ∧ (s.unf = true → t.unf = true)) ∧
    (¬ (m = .step ∧ ∃ x, decode s.fetchWord = .ok (.ldDT x)) → t.dt.toNat ≤ s.dt.toNat) ∧
    (¬ (m = .step ∧ ∃ x, decode s.fetchWord = .ok (.ldST x)) → t.st.toNat ≤ s.st.toNat)

/-- R21: `ERR[0]` is set by a CALL with `SP` = 16, `ERR[1]` by a RET with `SP` = 0, and a cycle changes neither otherwise. -/
def Obligations.ErrSetOnlyByStackMisuse : Prop :=
  ∀ s : State, ∃ t, step s = .next t ∧
    (t.ovf = true ↔ s.ovf = true ∨ (s.sp.val = 16 ∧ ∃ nnn, decode s.fetchWord = .ok (.call nnn))) ∧
    (t.unf = true ↔ s.unf = true ∨ (s.sp.val = 0 ∧ decode s.fetchWord = .ok .ret))

/-- R172: `DIRTY` is never 0 when the display may differ from what the host last read: every move but H_DISPLAY_READ and H_RESET
that leaves `DIRTY` = 0 found it 0 and left the display as it was; H_DISPLAY_READ shows the display it leaves. -/
def Obligations.DirtyIsConservative : Prop :=
  (∀ (m : HostMove) (s t : State), m ≠ .displayRead → m ≠ .reset → hostMove m s = .next t → t.dirty = false →
    s.dirty = false ∧ t.disp = s.disp) ∧
  (∀ s : State, (hDisplayRead s).2.dirty = false ∧ (hDisplayRead s).2.disp = s.disp)

/-- R14, D23: stack entries at `SP` and above are observed by nothing: two states that differ only there step to two states that
differ only there. -/
def Obligations.DeadStackEntriesUnobservable : Prop :=
  ∀ s s' : State, SameButDeadStack s s' → ∃ t t', step s = .next t ∧ step s' = .next t' ∧ SameButDeadStack t t'

/-- R19, R21, R145, R150: no instruction reads `ERR`, `DIRTY` or `ST`: two states that differ only in them step to two states that
differ only in them. -/
def Obligations.UnreadStateAffectsNothing : Prop :=
  ∀ s s' : State, SameButUnread s s' → ∃ t t', step s = .next t ∧ step s' = .next t' ∧ SameButUnread t t'

/-- R192: at a self-jump every cycle leaves everything unchanged and only runs the timers down. -/
def Obligations.SelfJumpOnlyRunsTimers : Prop :=
  ∀ (a : Addr) (s : State), s.AtSelfJump a → ∃ t, step s = .next t ∧ t.AtSelfJump a ∧
    t = { s with dt := t.dt, st := t.st } ∧ t.dt.toNat = s.dt.toNat - 1 ∧ t.st.toNat = s.st.toNat - 1

/-- R52: an instruction that overwrites the word at `PC + 2` is followed by the new word. -/
def Obligations.StoreSeenByNextFetch : Prop :=
  ∀ (x : Reg) (s : State), decode s.fetchWord = .ok (.ldMemVx x) → 1 ≤ x.val → s.i = s.pc + 2 →
    s.storeLands (byteAddr s.i 0) → s.storeLands (byteAddr s.i 1) →
    ∃ t, step s = .next t ∧ t.pc = s.pc + 2 ∧ t.fetchWord = s.reg 0 ++ s.reg 1

/-! ## Control transfer -/

/-- R90. -/
def Obligations.JumpSetsProgramCounter : Prop :=
  ∀ (nnn : Addr) (s : State), decode (wordA 0x1 nnn) = .ok (.jp nnn) ∧
    ∃ t, exec (.jp nnn) s = .next t ∧ t.pc.toNat = nnn.toNat ∧ OnlyTouches {} s t

/-- R91, R92: the return address is pushed when there is room; on a full stack it is not, `ERR[0]` is set; the jump is taken. -/
def Obligations.CallPushesReturnAddress : Prop :=
  ∀ (nnn : Addr) (s : State), decode (wordA 0x2 nnn) = .ok (.call nnn) ∧
    ∃ t, exec (.call nnn) s = .next t ∧ t.pc.toNat = nnn.toNat ∧
      (s.sp.val < 16 → t.sp.val = s.sp.val + 1 ∧ t.err = s.err ∧
        ∀ k : Fin 16, t.stack[k.val] = if k.val = s.sp.val then s.pc + 2 else s.stack[k.val]) ∧
      (s.sp.val = 16 → t.sp = s.sp ∧ t.stack = s.stack ∧ t.ovf = true ∧ t.unf = s.unf) ∧
      OnlyTouches { stack := true, err := true } s t

/-- R93, R94: the popped entry is the new `PC` with no advance and stays in the stack; an empty stack sets `ERR[1]` and advances. -/
def Obligations.ReturnPopsProgramCounter : Prop :=
  decode 0x00EE = .ok .ret ∧
  ∀ s : State, ∃ t, exec .ret s = .next t ∧ t.stack = s.stack ∧
    (∀ k : Fin 16, s.sp.val = k.val + 1 → t.sp.val = k.val ∧ t.pc = s.stack[k.val] ∧ t.err = s.err) ∧
    (s.sp.val = 0 → t.sp = s.sp ∧ t.pc = s.pc + 2 ∧ t.unf = true ∧ t.ovf = s.ovf) ∧
    OnlyTouches { stack := true, err := true } s t

/-- R91, R93: whatever a subroutine does, if it leaves the stack as CALL left it, its RET goes to the instruction after the CALL
and leaves `SP` as before the CALL. -/
def Obligations.ReturnMatchesCall : Prop :=
  ∀ (nnn : Addr) (s : State), s.sp.val < 16 → ∃ t, exec (.call nnn) s = .next t ∧
    ∀ u : State, u.stack = t.stack → u.sp = t.sp → ∃ r, exec .ret u = .next r ∧ r.pc = s.pc + 2 ∧ r.sp = s.sp

/-- R95, R96. -/
def Obligations.SkipsOnImmediate : Prop :=
  ∀ (x : Reg) (nn : Byte) (s : State),
    decode (wordXI 0x3 x nn) = .ok (.seImm x nn) ∧ decode (wordXI 0x4 x nn) = .ok (.sneImm x nn) ∧
    (∃ t, exec (.seImm x nn) s = .next t ∧
      (s.reg x = nn → t.pc = s.pc + 4) ∧ (s.reg x ≠ nn → t.pc = s.pc + 2) ∧ OnlyTouches {} s t) ∧
    (∃ t, exec (.sneImm x nn) s = .next t ∧
      (s.reg x ≠ nn → t.pc = s.pc + 4) ∧ (s.reg x = nn → t.pc = s.pc + 2) ∧ OnlyTouches {} s t)

/-- R97, R98. -/
def Obligations.SkipsOnRegisters : Prop :=
  ∀ (x y : Reg) (s : State),
    decode (word4 0x5 x y 0x0) = .ok (.seReg x y) ∧ decode (word4 0x9 x y 0x0) = .ok (.sneReg x y) ∧
    (∃ t, exec (.seReg x y) s = .next t ∧
      (s.reg x = s.reg y → t.pc = s.pc + 4) ∧ (s.reg x ≠ s.reg y → t.pc = s.pc + 2) ∧ OnlyTouches {} s t) ∧
    (∃ t, exec (.sneReg x y) s = .next t ∧
      (s.reg x ≠ s.reg y → t.pc = s.pc + 4) ∧ (s.reg x = s.reg y → t.pc = s.pc + 2) ∧ OnlyTouches {} s t)

/-- R99: the sum is kept whole. -/
def Obligations.JumpWithOffsetV0 : Prop :=
  ∀ (nnn : Addr) (s : State), decode (wordA 0xB nnn) = .ok (.jpV0 nnn) ∧
    ∃ t, exec (.jpV0 nnn) s = .next t ∧ t.pc.toNat = nnn.toNat + (s.reg 0).toNat ∧ OnlyTouches {} s t

/-! ## Registers, arithmetic, random -/

/-- R100, R103. -/
def Obligations.LoadRegister : Prop :=
  ∀ (x y : Reg) (nn : Byte) (s : State),
    decode (wordXI 0x6 x nn) = .ok (.ldImm x nn) ∧ decode (word4 0x8 x y 0x0) = .ok (.ldReg x y) ∧
    (∃ t, exec (.ldImm x nn) s = .next t ∧ t.reg x = nn ∧ t.pc = s.pc + 2 ∧ OnlyTouches (Touched.one x) s t) ∧
    (∃ t, exec (.ldReg x y) s = .next t ∧ t.reg x = s.reg y ∧ t.pc = s.pc + 2 ∧ OnlyTouches (Touched.one x) s t)

/-- R101: no carry flag, VF an ordinary register. -/
def Obligations.AddImmediateSetsNoFlag : Prop :=
  ∀ (x : Reg) (nn : Byte) (s : State), decode (wordXI 0x7 x nn) = .ok (.addImm x nn) ∧
    ∃ t, exec (.addImm x nn) s = .next t ∧ (t.reg x).toNat = ((s.reg x).toNat + nn.toNat) % 256 ∧ t.pc = s.pc + 2 ∧
      OnlyTouches (Touched.one x) s t

/-- R104 to R106: the result bit by bit, unless it was VF, and VF = 0 always. -/
def Obligations.LogicClearsVF : Prop :=
  ∀ (x y : Reg) (s : State),
    decode (word4 0x8 x y 0x1) = .ok (.orReg x y) ∧ decode (word4 0x8 x y 0x2) = .ok (.andReg x y) ∧
    decode (word4 0x8 x y 0x3) = .ok (.xorReg x y) ∧
    (∃ t, exec (.orReg x y) s = .next t ∧
      (x ≠ vf → ∀ k < 8, (t.reg x).getLsbD k = ((s.reg x).getLsbD k || (s.reg y).getLsbD k)) ∧
      t.reg vf = 0 ∧ t.pc = s.pc + 2 ∧ OnlyTouches (Touched.oneAndFlag x) s t) ∧
    (∃ t, exec (.andReg x y) s = .next t ∧
      (x ≠ vf → ∀ k < 8, (t.reg x).getLsbD k = ((s.reg x).getLsbD k && (s.reg y).getLsbD k)) ∧
      t.reg vf = 0 ∧ t.pc = s.pc + 2 ∧ OnlyTouches (Touched.oneAndFlag x) s t) ∧
    (∃ t, exec (.xorReg x y) s = .next t ∧
      (x ≠ vf → ∀ k < 8, (t.reg x).getLsbD k = ((s.reg x).getLsbD k ^^ (s.reg y).getLsbD k)) ∧
      t.reg vf = 0 ∧ t.pc = s.pc + 2 ∧ OnlyTouches (Touched.oneAndFlag x) s t)

/-- R107: sum modulo 256; VF, written last, is the carry. -/
def Obligations.AddSetsCarry : Prop :=
  ∀ (x y : Reg) (s : State), decode (word4 0x8 x y 0x4) = .ok (.addReg x y) ∧
    ∃ t, exec (.addReg x y) s = .next t ∧
      (x ≠ vf → (t.reg x).toNat = ((s.reg x).toNat + (s.reg y).toNat) % 256) ∧
      t.reg vf = (if (s.reg x).toNat + (s.reg y).toNat > 255 then 1 else 0) ∧ t.pc = s.pc + 2 ∧
      OnlyTouches (Touched.oneAndFlag x) s t

/-- R108, R110: difference modulo 256; VF, written last, is the not-borrow. -/
def Obligations.SubtractSetsNotBorrow : Prop :=
  ∀ (x y : Reg) (s : State),
    decode (word4 0x8 x y 0x5) = .ok (.subReg x y) ∧ decode (word4 0x8 x y 0x7) = .ok (.subn x y) ∧
    (∃ t, exec (.subReg x y) s = .next t ∧
      (x ≠ vf → (t.reg x).toNat = ((s.reg x).toNat + 256 - (s.reg y).toNat) % 256) ∧
      t.reg vf = (if (s.reg x).toNat < (s.reg y).toNat then 0 else 1) ∧ t.pc = s.pc + 2 ∧
      OnlyTouches (Touched.oneAndFlag x) s t) ∧
    (∃ t, exec (.subn x y) s = .next t ∧
      (x ≠ vf → (t.reg x).toNat = ((s.reg y).toNat + 256 - (s.reg x).toNat) % 256) ∧
      t.reg vf = (if (s.reg y).toNat < (s.reg x).toNat then 0 else 1) ∧ t.pc = s.pc + 2 ∧
      OnlyTouches (Touched.oneAndFlag x) s t)

/-- R109, R111: the source that `SHIFT_SOURCE` selects, shifted by one; VF, written last, is the bit shifted out. -/
def Obligations.ShiftByOne : Prop :=
  ∀ (x y : Reg) (s : State),
    decode (word4 0x8 x y 0x6) = .ok (.shr x y) ∧ decode (word4 0x8 x y 0xE) = .ok (.shl x y) ∧
    ∃ src, (s.cfg.shiftSource = .vy → src = (s.reg y).toNat) ∧ (s.cfg.shiftSource = .vx → src = (s.reg x).toNat) ∧
      (∃ t, exec (.shr x y) s = .next t ∧ (x ≠ vf → (t.reg x).toNat = src / 2) ∧ (t.reg vf).toNat = src % 2 ∧
        t.pc = s.pc + 2 ∧ OnlyTouches (Touched.oneAndFlag x) s t) ∧
      (∃ t, exec (.shl x y) s = .next t ∧ (x ≠ vf → (t.reg x).toNat = src * 2 % 256) ∧ (t.reg vf).toNat = src / 128 ∧
        t.pc = s.pc + 2 ∧ OnlyTouches (Touched.oneAndFlag x) s t)

/-- R113: any byte may arrive; the result is that byte masked, so a bit outside the mask is 0; the next draw takes another byte.
The two input fields are the model's (log 2). -/
def Obligations.RandomIsMaskedInput : Prop :=
  ∀ (x : Reg) (nn : Byte) (s : State), decode (wordXI 0xC x nn) = .ok (.rnd x nn) ∧
    (∃ t, exec (.rnd x nn) s = .next t ∧ t.reg x &&& ~~~nn = 0 ∧ (t.reg x).toNat ≤ nn.toNat ∧ t.pc = s.pc + 2 ∧
      (s.rndIn = [] → t.reg x = Config.freeRnd s.draws &&& nn ∧ t.rndIn = [] ∧ t.draws = s.draws + 1) ∧
      OnlyTouches { regs := fun r => r == x, rnd := true } s t) ∧
    (∀ (r : Byte) (rs : List Byte), s.rndIn = r :: rs →
      ∃ t, exec (.rnd x nn) s = .next t ∧ t.reg x = r &&& nn ∧ t.rndIn = rs ∧ t.draws = s.draws)

/-! ## Index register and memory -/

/-- R120. -/
def Obligations.LoadIndex : Prop :=
  ∀ (nnn : Addr) (s : State), decode (wordA 0xA nnn) = .ok (.ldI nnn) ∧
    ∃ t, exec (.ldI nnn) s = .next t ∧ t.i.toNat = nnn.toNat ∧ t.pc = s.pc + 2 ∧ OnlyTouches { index := true } s t

/-- R121: the sum modulo 65536, not reduced to 12 bits; VF is not written under the default `ADDI_SETS_VF` = `false`. -/
def Obligations.AddToIndex : Prop :=
  ∀ (x : Reg) (s : State), decode (wordXI 0xF x 0x1E) = .ok (.addI x) ∧
    ∃ t, exec (.addI x) s = .next t ∧ t.i.toNat = (s.i.toNat + (s.reg x).toNat) % 65536 ∧ t.pc = s.pc + 2 ∧
      (s.cfg.addISetsVF = false → OnlyTouches { index := true } s t)

/-- D6: with `ADDI_SETS_VF` = `true` the instruction also writes VF. That the flag is taken from the old `I` and the old `V[x]`, VF
included, is the model's reading (log 17). -/
def Obligations.AddToIndexSettingVF : Prop :=
  ∀ (x : Reg) (s : State), s.cfg.addISetsVF = true →
    ∃ t, exec (.addI x) s = .next t ∧ t.i.toNat = (s.i.toNat + (s.reg x).toNat) % 65536 ∧ t.pc = s.pc + 2 ∧
      t.reg vf = (if s.i.toNat + (s.reg x).toNat > 0x0FFF then 1 else 0) ∧
      OnlyTouches { regs := fun r => r == vf, index := true } s t

/-- R122: the whole 8-bit value enters the product. -/
def Obligations.LoadGlyphAddress : Prop :=
  ∀ (x : Reg) (s : State), decode (wordXI 0xF x 0x29) = .ok (.ldF x) ∧
    ∃ t, exec (.ldF x) s = .next t ∧ t.i.toNat = 0x050 + 5 * (s.reg x).toNat ∧ t.pc = s.pc + 2 ∧
      OnlyTouches { index := true } s t

/-- R124: hundreds, tens, ones to `I`, `I + 1`, `I + 2`, each where the store lands (R42), and no other byte. -/
def Obligations.StoreDecimalDigits : Prop :=
  ∀ (x : Reg) (s : State), decode (wordXI 0xF x 0x33) = .ok (.ldB x) ∧
    ∃ t, exec (.ldB x) s = .next t ∧ t.pc = s.pc + 2 ∧
      (s.storeLands (byteAddr s.i 0) → (t.readByte (byteAddr s.i 0)).toNat = (s.reg x).toNat / 100) ∧
      (s.storeLands (byteAddr s.i 1) → (t.readByte (byteAddr s.i 1)).toNat = (s.reg x).toNat / 10 % 10) ∧
      (s.storeLands (byteAddr s.i 2) → (t.readByte (byteAddr s.i 2)).toNat = (s.reg x).toNat % 10) ∧
      (∀ a, ¬ s.storeLands a ∨ (∀ k < 3, a ≠ byteAddr s.i k) → t.readByte a = s.readByte a) ∧
      OnlyTouches { mem := true } s t

/-- R125: `V[0]` to `V[x]` to `I` to `I + x`, each where the store lands (R42), and no other byte; `I` is advanced. -/
def Obligations.StoreRegisters : Prop :=
  ∀ (x : Reg) (s : State), decode (wordXI 0xF x 0x55) = .ok (.ldMemVx x) ∧
    ∃ t, exec (.ldMemVx x) s = .next t ∧ t.pc = s.pc + 2 ∧ t.i.toNat = (s.i.toNat + x.val + 1) % 65536 ∧
      (∀ k : Reg, k ≤ x → s.storeLands (byteAddr s.i k.val) → t.readByte (byteAddr s.i k.val) = s.reg k) ∧
      (∀ a, ¬ s.storeLands a ∨ (∀ k ≤ x.val, a ≠ byteAddr s.i k) → t.readByte a = s.readByte a) ∧
      OnlyTouches { index := true, mem := true } s t

/-- R126: `V[0]` to `V[x]` from `I` to `I + x`; `I` is advanced; memory is unchanged. -/
def Obligations.LoadRegisters : Prop :=
  ∀ (x : Reg) (s : State), decode (wordXI 0xF x 0x65) = .ok (.ldVxMem x) ∧
    ∃ t, exec (.ldVxMem x) s = .next t ∧ t.pc = s.pc + 2 ∧ t.i.toNat = (s.i.toNat + x.val + 1) % 65536 ∧
      (∀ k : Reg, k ≤ x → t.reg k = s.readByte (byteAddr s.i k.val)) ∧
      OnlyTouches { regs := fun r => decide (r ≤ x), index := true } s t

/-- R127: storing `V[0]` to `V[x]` and loading them back from the same place, whatever happened to the rest of the state in between,
gives their old values; where `FONT_WRITE_PROTECT` turned a store away, the byte that stood there is loaded instead. -/
def Obligations.RegisterRoundTrip : Prop :=
  ∀ (x : Reg) (s : State), ∃ t, exec (.ldMemVx x) s = .next t ∧ t.i.toNat = (s.i.toNat + x.val + 1) % 65536 ∧
    ∀ u : State, u.i = s.i → (∀ a, u.readByte a = t.readByte a) → ∃ r, exec (.ldVxMem x) u = .next r ∧
      (∀ k : Reg, k ≤ x → s.storeLands (byteAddr s.i k.val) → r.reg k = s.reg k) ∧
      (∀ k : Reg, k ≤ x → ¬ s.storeLands (byteAddr s.i k.val) → r.reg k = s.readByte (byteAddr s.i k.val)) ∧
      r.i.toNat = (s.i.toNat + x.val + 1) % 65536

/-! ## Display -/

/-- R130. -/
def Obligations.ClearScreen : Prop :=
  decode 0x00E0 = .ok .cls ∧
  ∀ s : State, ∃ t, exec .cls s = .next t ∧ (∀ y x, t.disp.pixel y x = false) ∧ t.dirty = true ∧ t.pc = s.pc + 2 ∧
    OnlyTouches { disp := true, dirty := true } s t

/-- R131: a pixel is inverted exactly when the sprite has a set bit on it, every pixel wrapped separately; VF is 1 exactly when
a set pixel was turned off, and 0 otherwise; `DIRTY` is set. -/
def Obligations.DrawSpriteExactly : Prop :=
  ∀ (x y : Reg) (n : Fin 16) (s : State), decode (word4 0xD x y n) = .ok (.drw x y n) ∧
    ∃ t, exec (.drw x y n) s = .next t ∧
      (∀ py px, s.spriteSets x y n py px → t.disp.pixel py px = !s.disp.pixel py px) ∧
      (∀ py px, ¬ s.spriteSets x y n py px → t.disp.pixel py px = s.disp.pixel py px) ∧
      ((∃ py px, s.disp.pixel py px = true ∧ t.disp.pixel py px = false) → t.reg vf = 1) ∧
      ((∀ py px, s.disp.pixel py px = true → t.disp.pixel py px = true) → t.reg vf = 0) ∧
      t.dirty = true ∧ t.pc = s.pc + 2 ∧ OnlyTouches { regs := fun r => r == vf, disp := true, dirty := true } s t

/-- R132 (i): the same sprite at the same place twice restores the display, and VF = 1 after the second exactly when the sprite
has a set bit on a pixel the first left set. A coordinate in VF is left out: the first draw writes VF, so the place is another. -/
def Obligations.DrawTwiceRestores : Prop :=
  ∀ (x y : Reg) (n : Fin 16) (s : State), x ≠ vf → y ≠ vf →
    ∃ t u, exec (.drw x y n) s = .next t ∧ exec (.drw x y n) t = .next u ∧ u.disp = s.disp ∧
      (u.reg vf = 1 ↔ ∃ py px, s.spriteSets x y n py px ∧ s.disp.pixel py px = false)

/-! ## Keys and timers -/

/-- R140, R141, R146: the key is the low four bits of `V[x]`. -/
def Obligations.SkipsOnKey : Prop :=
  ∀ (x : Reg) (s : State),
    decode (wordXI 0xE x 0x9E) = .ok (.skp x) ∧ decode (wordXI 0xE x 0xA1) = .ok (.sknp x) ∧
    (∃ t, exec (.skp x) s = .next t ∧ (s.key.getLsbD ((s.reg x).toNat % 16) = true → t.pc = s.pc + 4) ∧
      (s.key.getLsbD ((s.reg x).toNat % 16) = false → t.pc = s.pc + 2) ∧ OnlyTouches {} s t) ∧
    (∃ t, exec (.sknp x) s = .next t ∧ (s.key.getLsbD ((s.reg x).toNat % 16) = false → t.pc = s.pc + 4) ∧
      (s.key.getLsbD ((s.reg x).toNat % 16) = true → t.pc = s.pc + 2) ∧ OnlyTouches {} s t)

/-- R142: the value read is `DT` before the tick. -/
def Obligations.ReadDelayTimer : Prop :=
  ∀ (x : Reg) (s : State), decode (wordXI 0xF x 0x07) = .ok (.ldVxDT x) ∧
    ∃ t, exec (.ldVxDT x) s = .next t ∧ t.reg x = s.dt ∧ t.pc = s.pc + 2 ∧ OnlyTouches (Touched.one x) s t

/-- R143: the least pressed key, or, with none down, nothing but a cycle at the same `PC`. -/
def Obligations.WaitForKey : Prop :=
  ∀ (x : Reg) (s : State), decode (wordXI 0xF x 0x0A) = .ok (.ldVxK x) ∧
    ∃ t, exec (.ldVxK x) s = .next t ∧
      (∀ k : Fin 16, s.keyDown k = true → (∀ j : Fin 16, j < k → s.keyDown j = false) →
        (t.reg x).toNat = k.val ∧ t.pc = s.pc + 2 ∧ OnlyTouches (Touched.one x) s t) ∧
      ((∀ k : Fin 16, s.keyDown k = false) → t = s)

/-- R144, R145: the timer is loaded, and the tick of the same cycle then takes one from it. -/
def Obligations.LoadTimers : Prop :=
  ∀ (x : Reg) (s : State),
    decode (wordXI 0xF x 0x15) = .ok (.ldDT x) ∧ decode (wordXI 0xF x 0x18) = .ok (.ldST x) ∧
    (∃ t, exec (.ldDT x) s = .next t ∧ t.dt = s.reg x ∧ t.pc = s.pc + 2 ∧ OnlyTouches { dt := true } s t ∧
      (s.fetchWord = wordXI 0xF x 0x15 → ∃ u, step s = .next u ∧ u.dt.toNat = (s.reg x).toNat - 1)) ∧
    (∃ t, exec (.ldST x) s = .next t ∧ t.st = s.reg x ∧ t.pc = s.pc + 2 ∧ OnlyTouches { st := true } s t ∧
      (s.fetchWord = wordXI 0xF x 0x18 → ∃ u, step s = .next u ∧ u.st.toNat = (s.reg x).toNat - 1 ∧
        u.soundActive = decide (1 < (s.reg x).toNat)))

/-! ## Host operations -/

/-- R163: 1 to 3584 bytes are placed from 0x200 on and nothing else changes; any other length is a `LoadError`. -/
def Obligations.HostLoad : Prop :=
  ∀ (bytes : List Byte) (s : State),
    (bytes.length = 0 ∨ 3584 < bytes.length → hLoad bytes s = .loadError ∧ hostMove (.load bytes) s = .next s) ∧
    (1 ≤ bytes.length → bytes.length ≤ 3584 → ∃ t, hLoad bytes s = .loaded t ∧ hostMove (.load bytes) s = .next t ∧
      (∀ k, ∀ h : k < bytes.length, t.readByte (BitVec.ofNat 12 (0x200 + k)) = bytes[k]) ∧
      (∀ a : Addr, a.toNat < 0x200 ∨ 0x200 + bytes.length ≤ a.toNat → t.readByte a = s.readByte a) ∧
      t = { s with mem := t.mem })

/-- R160, R164: what H_DISPLAY_READ returns, bit `64 * y + x`, and leaves; what H_DISPLAY_CLEAR leaves. -/
def Obligations.HostDisplay : Prop :=
  ∀ s : State,
    (∀ (y : Fin 32) (x : Fin 64), (hDisplayRead s).1.grid.getLsbD (64 * y.val + x.val) = s.disp.pixel y x) ∧
    (hDisplayRead s).1.changed = s.dirty ∧ (hDisplayRead s).2 = { s with dirty := false } ∧
    (∀ y x, (hDisplayClear s).disp.pixel y x = false) ∧
    hDisplayClear s = { s with disp := (hDisplayClear s).disp, dirty := true }

/-- R161, R162: H_KEYS_WRITE sets all sixteen key bits at once and nothing else, no other move but reset changes them, and
H_KEYS_READ reads them and changes nothing. -/
def Obligations.HostKeys : Prop :=
  (∀ (pressed : List (Fin 16)) (s : State),
    hostMove (.keysWrite pressed) s = .next (hKeysWrite pressed s) ∧
    (∀ k : Fin 16, (hKeysWrite pressed s).keyDown k = decide (k ∈ pressed)) ∧
    hKeysWrite pressed s = { s with key := (hKeysWrite pressed s).key }) ∧
  (∀ (m : HostMove) (s t : State), m ≠ .reset → (∀ pressed, m ≠ .keysWrite pressed) → hostMove m s = .next t → t.key = s.key) ∧
  (∀ s : State, hostMove .keysRead s = .next s ∧ ∀ k : Fin 16, (hKeysRead s).getLsbD k.val = s.keyDown k)

/-- R88, R166: each request alone at a clock edge is its operation, and an edge with none changes nothing; two requests at one edge
are refused (log 8). -/
def Obligations.ClockEdgeIsOneOperation : Prop :=
  ∀ s : State, (∀ p : PortsIn, p.rst = false → p.step = false → p.hostRequests = 0 → clockEdge p s = .next s) ∧
    (∀ ignored : Bool, clockEdge { rst := true, step := ignored } s = .next (hReset s)) ∧
    (∀ r : Byte, clockEdge { step := true, rnd := r } s = stepWithRnd r s) ∧
    (∀ k : BitVec 16, clockEdge { keysWe := true, keys := k } s = .next { s with key := k }) ∧
    clockEdge { dispAck := true } s = .next { s with dirty := false } ∧
    clockEdge { dispClr := true } s = .next (hDisplayClear s) ∧
    (∀ (a : Addr) (b : Byte), 0x200 ≤ a.toNat → ∃ t, clockEdge { ldWe := true, ldAddr := a, ldData := b } s = .next t ∧
      t.readByte a = b ∧ (∀ q, q ≠ a → t.readByte q = s.readByte q) ∧ t = { s with mem := t.mem }) ∧
    (∀ p : PortsIn, p.rst = false → 1 < p.hostRequests + p.step.toNat → clockEdge p s = .refused .overlappingRequests)

/-- R165, R180: H_RESET gives R24's state whatever went before; the configuration stays (log 1, log 6). -/
def Obligations.HostReset : Prop :=
  ∀ s : State, hostMove .reset s = .next (hReset s) ∧ hReset s = { State.resetWith s.cfg with rndIn := s.rndIn, draws := s.draws } ∧
    (hReset s).Inv ∧ (hReset s).Clean

/-- The host's two readings of a 16-bit word agree: the word placed at `PC` is fetched, its decoding is the table's, and no other
byte and no other state changes (log 9). -/
def Obligations.PlacedWordIsFetched : Prop :=
  ∀ (s : State) (w : Nat), w < 65536 →
    (s.withFetchWord 16 w).fetchWord = BitVec.ofNat 16 w ∧
    decodeTableWord 16 w = (decode (BitVec.ofNat 16 w)).toOption ∧
    (∀ a, a ≠ byteAddr s.pc 0 → a ≠ byteAddr s.pc 1 → (s.withFetchWord 16 w).readByte a = s.readByte a) ∧
    s.withFetchWord 16 w = { s with mem := (s.withFetchWord 16 w).mem }
end

