-- ==== Sys2Proof/Laws/Decode.lean ====
section
/-! SUPPORT. Words and their fields as numbers, so that decoding an encoding is arithmetic and no bit is chased twice. -/

namespace Sys2Proof

/-! ## Words as numbers -/

theorem toNat_append_bytes {v w : Nat} (a : BitVec v) (b : BitVec w) : (a ++ b).toNat = a.toNat * 2 ^ w + b.toNat := by
  rw [BitVec.toNat_append, ← Nat.shiftLeft_add_eq_or_of_lt b.isLt, Nat.shiftLeft_eq]

theorem toNat_word4 (a b c d : Fin 16) : (word4 a b c d).toNat = a.val * 4096 + b.val * 256 + c.val * 16 + d.val := by
  rw [word4, toNat_append_bytes, toNat_append_bytes, toNat_append_bytes]
  simp only [BitVec.toNat_ofFin]
  omega

theorem toNat_wordXI (op : Fin 16) (x : Reg) (nn : Byte) : (wordXI op x nn).toNat = op.val * 4096 + x.val * 256 + nn.toNat := by
  rw [wordXI, toNat_append_bytes, toNat_append_bytes]
  simp only [BitVec.toNat_ofFin]
  omega

theorem toNat_wordA (op : Fin 16) (nnn : Addr) : (wordA op nnn).toNat = op.val * 4096 + nnn.toNat := by
  rw [wordA, toNat_append_bytes]
  rfl

/-! ## Fields as numbers (R8) -/

theorem val_nibble (w : Word) (lo : Nat) : (nibble w lo).val = w.toNat / 2 ^ lo % 16 := by
  show (w.extractLsb' lo 4).toNat = _
  rw [BitVec.extractLsb'_toNat, Nat.shiftRight_eq_div_pow]

theorem val_fieldOp (w : Word) : (fieldOp w).val = w.toNat / 4096 := by
  have := w.isLt
  rw [fieldOp, val_nibble]
  omega

theorem val_fieldX (w : Word) : (fieldX w).val = w.toNat / 256 % 16 := val_nibble w 8
theorem val_fieldY (w : Word) : (fieldY w).val = w.toNat / 16 % 16 := val_nibble w 4

theorem val_fieldN (w : Word) : (fieldN w).val = w.toNat % 16 := by
  rw [fieldN, val_nibble]
  omega

theorem toNat_fieldNN (w : Word) : (fieldNN w).toNat = w.toNat % 256 := by
  rw [fieldNN, BitVec.extractLsb'_toNat]
  rfl

theorem toNat_fieldNNN (w : Word) : (fieldNNN w).toNat = w.toNat % 4096 := by
  rw [fieldNNN, BitVec.extractLsb'_toNat]
  rfl

/-! ## Fields of an encoding -/

@[simp] theorem fieldOp_word4 (a b c d : Fin 16) : fieldOp (word4 a b c d) = a := by
  rw [Fin.ext_iff, val_fieldOp, toNat_word4]; omega
@[simp] theorem fieldX_word4 (a b c d : Fin 16) : fieldX (word4 a b c d) = b := by
  rw [Fin.ext_iff, val_fieldX, toNat_word4]; omega
@[simp] theorem fieldY_word4 (a b c d : Fin 16) : fieldY (word4 a b c d) = c := by
  rw [Fin.ext_iff, val_fieldY, toNat_word4]; omega
@[simp] theorem fieldN_word4 (a b c d : Fin 16) : fieldN (word4 a b c d) = d := by
  rw [Fin.ext_iff, val_fieldN, toNat_word4]; omega
@[simp] theorem fieldOp_wordXI (op : Fin 16) (x : Reg) (nn : Byte) : fieldOp (wordXI op x nn) = op := by
  rw [Fin.ext_iff, val_fieldOp, toNat_wordXI]; omega
@[simp] theorem fieldX_wordXI (op : Fin 16) (x : Reg) (nn : Byte) : fieldX (wordXI op x nn) = x := by
  rw [Fin.ext_iff, val_fieldX, toNat_wordXI]; omega
@[simp] theorem fieldNN_wordXI (op : Fin 16) (x : Reg) (nn : Byte) : fieldNN (wordXI op x nn) = nn := by
  rw [← BitVec.toNat_inj, toNat_fieldNN, toNat_wordXI]; omega
@[simp] theorem fieldOp_wordA (op : Fin 16) (nnn : Addr) : fieldOp (wordA op nnn) = op := by
  rw [Fin.ext_iff, val_fieldOp, toNat_wordA]; omega
@[simp] theorem fieldNNN_wordA (op : Fin 16) (nnn : Addr) : fieldNNN (wordA op nnn) = nnn := by
  rw [← BitVec.toNat_inj, toNat_fieldNNN, toNat_wordA]; omega

/-! ## A word from its fields -/

theorem word4_fields (w : Word) : word4 (fieldOp w) (fieldX w) (fieldY w) (fieldN w) = w := by
  have := w.isLt
  rw [← BitVec.toNat_inj, toNat_word4, val_fieldOp, val_fieldX, val_fieldY, val_fieldN]
  omega

theorem wordXI_fields (w : Word) : wordXI (fieldOp w) (fieldX w) (fieldNN w) = w := by
  have := w.isLt
  rw [← BitVec.toNat_inj, toNat_wordXI, val_fieldOp, val_fieldX, toNat_fieldNN]
  omega

theorem wordA_fields (w : Word) : wordA (fieldOp w) (fieldNNN w) = w := by
  have := w.isLt
  rw [← BitVec.toNat_inj, toNat_wordA, val_fieldOp, toNat_fieldNNN]
  omega

/-! ## A word from the fields a decoder has tested -/

theorem wordA_of_op (w : Word) (op : Fin 16) (h : (fieldOp w).val = op.val) : wordA op (fieldNNN w) = w := by
  rw [← Fin.ext h]
  exact wordA_fields w

theorem wordXI_of_op (w : Word) (op : Fin 16) (h : (fieldOp w).val = op.val) : wordXI op (fieldX w) (fieldNN w) = w := by
  rw [← Fin.ext h]
  exact wordXI_fields w

theorem wordXI_of_op_byte (w : Word) (op : Fin 16) (nn : Byte) (h : (fieldOp w).val = op.val)
    (hn : (fieldNN w).toNat = nn.toNat) : wordXI op (fieldX w) nn = w := by
  rw [← BitVec.eq_of_toNat_eq hn]
  exact wordXI_of_op w op h

theorem word4_of_op_nibble (w : Word) (op n : Fin 16) (h : (fieldOp w).val = op.val) (hn : (fieldN w).val = n.val) :
    word4 op (fieldX w) (fieldY w) n = w := by
  rw [← Fin.ext h, ← Fin.ext hn]
  exact word4_fields w

/-! ## The masks of R64 -/

theorem bit_cases {k : Nat} (h : k < 16) : k = 0 ∨ k = 1 ∨ k = 2 ∨ k = 3 ∨ k = 4 ∨ k = 5 ∨ k = 6 ∨ k = 7 ∨ k = 8 ∨ k = 9 ∨
    k = 10 ∨ k = 11 ∨ k = 12 ∨ k = 13 ∨ k = 14 ∨ k = 15 := by omega

/-- The mask of formats A, XI and XYN keeps the family digit. -/
theorem and_mask_op (w : Word) : w &&& 0xF000 = word4 (fieldOp w) 0 0 0 := by
  show w &&& 0xF000#16 = w.extractLsb' 12 4 ++ 0#4 ++ 0#4 ++ 0#4
  apply BitVec.eq_of_getLsbD_eq
  intro k hk
  simp only [BitVec.getLsbD_append, BitVec.getLsbD_and, BitVec.getLsbD_extractLsb']
  rcases bit_cases hk with rfl | rfl | rfl | rfl | rfl | rfl | rfl | rfl | rfl | rfl | rfl | rfl | rfl | rfl | rfl | rfl <;> simp

/-- The mask of format XY keeps the family digit and the low nibble. -/
theorem and_mask_op_n (w : Word) : w &&& 0xF00F = word4 (fieldOp w) 0 0 (fieldN w) := by
  show w &&& 0xF00F#16 = w.extractLsb' 12 4 ++ 0#4 ++ 0#4 ++ w.extractLsb' 0 4
  apply BitVec.eq_of_getLsbD_eq
  intro k hk
  simp only [BitVec.getLsbD_append, BitVec.getLsbD_and, BitVec.getLsbD_extractLsb']
  rcases bit_cases hk with rfl | rfl | rfl | rfl | rfl | rfl | rfl | rfl | rfl | rfl | rfl | rfl | rfl | rfl | rfl | rfl <;> simp

/-- The mask of format X keeps the family digit and the low byte. -/
theorem and_mask_op_nn (w : Word) : w &&& 0xF0FF = wordXI (fieldOp w) 0 (fieldNN w) := by
  show w &&& 0xF0FF#16 = w.extractLsb' 12 4 ++ 0#4 ++ w.extractLsb' 0 8
  apply BitVec.eq_of_getLsbD_eq
  intro k hk
  simp only [BitVec.getLsbD_append, BitVec.getLsbD_and, BitVec.getLsbD_extractLsb']
  rcases bit_cases hk with rfl | rfl | rfl | rfl | rfl | rfl | rfl | rfl | rfl | rfl | rfl | rfl | rfl | rfl | rfl | rfl <;> simp

/-! ## Bytes of a word (R44) -/

theorem highByte_append_lowByte (w : Word) : highByte w ++ lowByte w = w := by
  have := w.isLt
  rw [← BitVec.toNat_inj, toNat_append_bytes, highByte, lowByte, BitVec.extractLsb'_toNat, BitVec.extractLsb'_toNat,
    Nat.shiftRight_eq_div_pow]
  omega

theorem decodeBytes_wordBytes (w : Word) : decodeBytes (highByte w) (lowByte w) = decode w := by
  rw [decodeBytes, highByte_append_lowByte]

end Sys2Proof
end

