-- ==== Sys2Proof/Laws/State.lean ====
section
/-! SUPPORT. What each update of one piece of state leaves in every field, true by rfl, and the same for the two accessors
`State.reg` and `State.readByte` where the update does not concern them. -/

namespace Sys2Proof.Machine

variable (s : State)

/-! ## `setReg` -/

@[simp] theorem setReg_v (r : Reg) (b : Byte) : (s.setReg r b).v = s.v.set r.val b := rfl
@[simp] theorem setReg_pc (r : Reg) (b : Byte) : (s.setReg r b).pc = s.pc := rfl
@[simp] theorem setReg_i (r : Reg) (b : Byte) : (s.setReg r b).i = s.i := rfl
@[simp] theorem setReg_stack (r : Reg) (b : Byte) : (s.setReg r b).stack = s.stack := rfl
@[simp] theorem setReg_sp (r : Reg) (b : Byte) : (s.setReg r b).sp = s.sp := rfl
@[simp] theorem setReg_dt (r : Reg) (b : Byte) : (s.setReg r b).dt = s.dt := rfl
@[simp] theorem setReg_st (r : Reg) (b : Byte) : (s.setReg r b).st = s.st := rfl
@[simp] theorem setReg_mem (r : Reg) (b : Byte) : (s.setReg r b).mem = s.mem := rfl
@[simp] theorem setReg_disp (r : Reg) (b : Byte) : (s.setReg r b).disp = s.disp := rfl
@[simp] theorem setReg_dirty (r : Reg) (b : Byte) : (s.setReg r b).dirty = s.dirty := rfl
@[simp] theorem setReg_key (r : Reg) (b : Byte) : (s.setReg r b).key = s.key := rfl
@[simp] theorem setReg_err (r : Reg) (b : Byte) : (s.setReg r b).err = s.err := rfl
@[simp] theorem setReg_cfg (r : Reg) (b : Byte) : (s.setReg r b).cfg = s.cfg := rfl
@[simp] theorem setReg_rndIn (r : Reg) (b : Byte) : (s.setReg r b).rndIn = s.rndIn := rfl
@[simp] theorem setReg_draws (r : Reg) (b : Byte) : (s.setReg r b).draws = s.draws := rfl
@[simp] theorem setReg_readByte (r : Reg) (b : Byte) (a : Addr) : (s.setReg r b).readByte a = s.readByte a := rfl

/-! ## `setPc` -/

@[simp] theorem setPc_v (w : Word) : (s.setPc w).v = s.v := rfl
@[simp] theorem setPc_pc (w : Word) : (s.setPc w).pc = w := rfl
@[simp] theorem setPc_i (w : Word) : (s.setPc w).i = s.i := rfl
@[simp] theorem setPc_stack (w : Word) : (s.setPc w).stack = s.stack := rfl
@[simp] theorem setPc_sp (w : Word) : (s.setPc w).sp = s.sp := rfl
@[simp] theorem setPc_dt (w : Word) : (s.setPc w).dt = s.dt := rfl
@[simp] theorem setPc_st (w : Word) : (s.setPc w).st = s.st := rfl
@[simp] theorem setPc_mem (w : Word) : (s.setPc w).mem = s.mem := rfl
@[simp] theorem setPc_disp (w : Word) : (s.setPc w).disp = s.disp := rfl
@[simp] theorem setPc_dirty (w : Word) : (s.setPc w).dirty = s.dirty := rfl
@[simp] theorem setPc_key (w : Word) : (s.setPc w).key = s.key := rfl
@[simp] theorem setPc_err (w : Word) : (s.setPc w).err = s.err := rfl
@[simp] theorem setPc_cfg (w : Word) : (s.setPc w).cfg = s.cfg := rfl
@[simp] theorem setPc_rndIn (w : Word) : (s.setPc w).rndIn = s.rndIn := rfl
@[simp] theorem setPc_draws (w : Word) : (s.setPc w).draws = s.draws := rfl
@[simp] theorem setPc_reg (w : Word) (q : Reg) : (s.setPc w).reg q = s.reg q := rfl
@[simp] theorem setPc_readByte (w : Word) (a : Addr) : (s.setPc w).readByte a = s.readByte a := rfl

/-! ## `advance` -/

@[simp] theorem advance_v : (s.advance).v = s.v := rfl
@[simp] theorem advance_pc : (s.advance).pc = s.pc + 2 := rfl
@[simp] theorem advance_i : (s.advance).i = s.i := rfl
@[simp] theorem advance_stack : (s.advance).stack = s.stack := rfl
@[simp] theorem advance_sp : (s.advance).sp = s.sp := rfl
@[simp] theorem advance_dt : (s.advance).dt = s.dt := rfl
@[simp] theorem advance_st : (s.advance).st = s.st := rfl
@[simp] theorem advance_mem : (s.advance).mem = s.mem := rfl
@[simp] theorem advance_disp : (s.advance).disp = s.disp := rfl
@[simp] theorem advance_dirty : (s.advance).dirty = s.dirty := rfl
@[simp] theorem advance_key : (s.advance).key = s.key := rfl
@[simp] theorem advance_err : (s.advance).err = s.err := rfl
@[simp] theorem advance_cfg : (s.advance).cfg = s.cfg := rfl
@[simp] theorem advance_rndIn : (s.advance).rndIn = s.rndIn := rfl
@[simp] theorem advance_draws : (s.advance).draws = s.draws := rfl
@[simp] theorem advance_reg (q : Reg) : (s.advance).reg q = s.reg q := rfl
@[simp] theorem advance_readByte (a : Addr) : (s.advance).readByte a = s.readByte a := rfl

/-! ## `skipIf` -/

@[simp] theorem skipIf_v (c : Bool) : (s.skipIf c).v = s.v := rfl
@[simp] theorem skipIf_pc (c : Bool) : (s.skipIf c).pc = if c then s.pc + 4 else s.pc + 2 := rfl
@[simp] theorem skipIf_i (c : Bool) : (s.skipIf c).i = s.i := rfl
@[simp] theorem skipIf_stack (c : Bool) : (s.skipIf c).stack = s.stack := rfl
@[simp] theorem skipIf_sp (c : Bool) : (s.skipIf c).sp = s.sp := rfl
@[simp] theorem skipIf_dt (c : Bool) : (s.skipIf c).dt = s.dt := rfl
@[simp] theorem skipIf_st (c : Bool) : (s.skipIf c).st = s.st := rfl
@[simp] theorem skipIf_mem (c : Bool) : (s.skipIf c).mem = s.mem := rfl
@[simp] theorem skipIf_disp (c : Bool) : (s.skipIf c).disp = s.disp := rfl
@[simp] theorem skipIf_dirty (c : Bool) : (s.skipIf c).dirty = s.dirty := rfl
@[simp] theorem skipIf_key (c : Bool) : (s.skipIf c).key = s.key := rfl
@[simp] theorem skipIf_err (c : Bool) : (s.skipIf c).err = s.err := rfl
@[simp] theorem skipIf_cfg (c : Bool) : (s.skipIf c).cfg = s.cfg := rfl
@[simp] theorem skipIf_rndIn (c : Bool) : (s.skipIf c).rndIn = s.rndIn := rfl
@[simp] theorem skipIf_draws (c : Bool) : (s.skipIf c).draws = s.draws := rfl
@[simp] theorem skipIf_reg (c : Bool) (q : Reg) : (s.skipIf c).reg q = s.reg q := rfl
@[simp] theorem skipIf_readByte (c : Bool) (a : Addr) : (s.skipIf c).readByte a = s.readByte a := rfl

/-! ## `setIndex` -/

@[simp] theorem setIndex_v (w : Word) : (s.setIndex w).v = s.v := rfl
@[simp] theorem setIndex_pc (w : Word) : (s.setIndex w).pc = s.pc := rfl
@[simp] theorem setIndex_i (w : Word) : (s.setIndex w).i = w := rfl
@[simp] theorem setIndex_stack (w : Word) : (s.setIndex w).stack = s.stack := rfl
@[simp] theorem setIndex_sp (w : Word) : (s.setIndex w).sp = s.sp := rfl
@[simp] theorem setIndex_dt (w : Word) : (s.setIndex w).dt = s.dt := rfl
@[simp] theorem setIndex_st (w : Word) : (s.setIndex w).st = s.st := rfl
@[simp] theorem setIndex_mem (w : Word) : (s.setIndex w).mem = s.mem := rfl
@[simp] theorem setIndex_disp (w : Word) : (s.setIndex w).disp = s.disp := rfl
@[simp] theorem setIndex_dirty (w : Word) : (s.setIndex w).dirty = s.dirty := rfl
@[simp] theorem setIndex_key (w : Word) : (s.setIndex w).key = s.key := rfl
@[simp] theorem setIndex_err (w : Word) : (s.setIndex w).err = s.err := rfl
@[simp] theorem setIndex_cfg (w : Word) : (s.setIndex w).cfg = s.cfg := rfl
@[simp] theorem setIndex_rndIn (w : Word) : (s.setIndex w).rndIn = s.rndIn := rfl
@[simp] theorem setIndex_draws (w : Word) : (s.setIndex w).draws = s.draws := rfl
@[simp] theorem setIndex_reg (w : Word) (q : Reg) : (s.setIndex w).reg q = s.reg q := rfl
@[simp] theorem setIndex_readByte (w : Word) (a : Addr) : (s.setIndex w).readByte a = s.readByte a := rfl

/-! ## `setRegFlag` -/

@[simp] theorem setRegFlag_v (x : Reg) (b f : Byte) : (s.setRegFlag x b f).v = (s.v.set x.val b).set vf.val f := rfl
@[simp] theorem setRegFlag_pc (x : Reg) (b f : Byte) : (s.setRegFlag x b f).pc = s.pc := rfl
@[simp] theorem setRegFlag_i (x : Reg) (b f : Byte) : (s.setRegFlag x b f).i = s.i := rfl
@[simp] theorem setRegFlag_stack (x : Reg) (b f : Byte) : (s.setRegFlag x b f).stack = s.stack := rfl
@[simp] theorem setRegFlag_sp (x : Reg) (b f : Byte) : (s.setRegFlag x b f).sp = s.sp := rfl
@[simp] theorem setRegFlag_dt (x : Reg) (b f : Byte) : (s.setRegFlag x b f).dt = s.dt := rfl
@[simp] theorem setRegFlag_st (x : Reg) (b f : Byte) : (s.setRegFlag x b f).st = s.st := rfl
@[simp] theorem setRegFlag_mem (x : Reg) (b f : Byte) : (s.setRegFlag x b f).mem = s.mem := rfl
@[simp] theorem setRegFlag_disp (x : Reg) (b f : Byte) : (s.setRegFlag x b f).disp = s.disp := rfl
@[simp] theorem setRegFlag_dirty (x : Reg) (b f : Byte) : (s.setRegFlag x b f).dirty = s.dirty := rfl
@[simp] theorem setRegFlag_key (x : Reg) (b f : Byte) : (s.setRegFlag x b f).key = s.key := rfl
@[simp] theorem setRegFlag_err (x : Reg) (b f : Byte) : (s.setRegFlag x b f).err = s.err := rfl
@[simp] theorem setRegFlag_cfg (x : Reg) (b f : Byte) : (s.setRegFlag x b f).cfg = s.cfg := rfl
@[simp] theorem setRegFlag_rndIn (x : Reg) (b f : Byte) : (s.setRegFlag x b f).rndIn = s.rndIn := rfl
@[simp] theorem setRegFlag_draws (x : Reg) (b f : Byte) : (s.setRegFlag x b f).draws = s.draws := rfl
@[simp] theorem setRegFlag_readByte (x : Reg) (b f : Byte) (a : Addr) : (s.setRegFlag x b f).readByte a = s.readByte a := rfl

/-! ## `pokeByte` -/

@[simp] theorem pokeByte_v (a : Addr) (b : Byte) : (s.pokeByte a b).v = s.v := rfl
@[simp] theorem pokeByte_pc (a : Addr) (b : Byte) : (s.pokeByte a b).pc = s.pc := rfl
@[simp] theorem pokeByte_i (a : Addr) (b : Byte) : (s.pokeByte a b).i = s.i := rfl
@[simp] theorem pokeByte_stack (a : Addr) (b : Byte) : (s.pokeByte a b).stack = s.stack := rfl
@[simp] theorem pokeByte_sp (a : Addr) (b : Byte) : (s.pokeByte a b).sp = s.sp := rfl
@[simp] theorem pokeByte_dt (a : Addr) (b : Byte) : (s.pokeByte a b).dt = s.dt := rfl
@[simp] theorem pokeByte_st (a : Addr) (b : Byte) : (s.pokeByte a b).st = s.st := rfl
@[simp] theorem pokeByte_mem (a : Addr) (b : Byte) : (s.pokeByte a b).mem = Memory.write s.cfg.fontData s.mem a.toNat b := rfl
@[simp] theorem pokeByte_disp (a : Addr) (b : Byte) : (s.pokeByte a b).disp = s.disp := rfl
@[simp] theorem pokeByte_dirty (a : Addr) (b : Byte) : (s.pokeByte a b).dirty = s.dirty := rfl
@[simp] theorem pokeByte_key (a : Addr) (b : Byte) : (s.pokeByte a b).key = s.key := rfl
@[simp] theorem pokeByte_err (a : Addr) (b : Byte) : (s.pokeByte a b).err = s.err := rfl
@[simp] theorem pokeByte_cfg (a : Addr) (b : Byte) : (s.pokeByte a b).cfg = s.cfg := rfl
@[simp] theorem pokeByte_rndIn (a : Addr) (b : Byte) : (s.pokeByte a b).rndIn = s.rndIn := rfl
@[simp] theorem pokeByte_draws (a : Addr) (b : Byte) : (s.pokeByte a b).draws = s.draws := rfl
@[simp] theorem pokeByte_reg (a : Addr) (b : Byte) (q : Reg) : (s.pokeByte a b).reg q = s.reg q := rfl

/-! ## `setDisplay` -/

@[simp] theorem setDisplay_v (d : Display) : (s.setDisplay d).v = s.v := rfl
@[simp] theorem setDisplay_pc (d : Display) : (s.setDisplay d).pc = s.pc := rfl
@[simp] theorem setDisplay_i (d : Display) : (s.setDisplay d).i = s.i := rfl
@[simp] theorem setDisplay_stack (d : Display) : (s.setDisplay d).stack = s.stack := rfl
@[simp] theorem setDisplay_sp (d : Display) : (s.setDisplay d).sp = s.sp := rfl
@[simp] theorem setDisplay_dt (d : Display) : (s.setDisplay d).dt = s.dt := rfl
@[simp] theorem setDisplay_st (d : Display) : (s.setDisplay d).st = s.st := rfl
@[simp] theorem setDisplay_mem (d : Display) : (s.setDisplay d).mem = s.mem := rfl
@[simp] theorem setDisplay_disp (d : Display) : (s.setDisplay d).disp = d := rfl
@[simp] theorem setDisplay_dirty (d : Display) : (s.setDisplay d).dirty = true := rfl
@[simp] theorem setDisplay_key (d : Display) : (s.setDisplay d).key = s.key := rfl
@[simp] theorem setDisplay_err (d : Display) : (s.setDisplay d).err = s.err := rfl
@[simp] theorem setDisplay_cfg (d : Display) : (s.setDisplay d).cfg = s.cfg := rfl
@[simp] theorem setDisplay_rndIn (d : Display) : (s.setDisplay d).rndIn = s.rndIn := rfl
@[simp] theorem setDisplay_draws (d : Display) : (s.setDisplay d).draws = s.draws := rfl
@[simp] theorem setDisplay_reg (d : Display) (q : Reg) : (s.setDisplay d).reg q = s.reg q := rfl
@[simp] theorem setDisplay_readByte (d : Display) (a : Addr) : (s.setDisplay d).readByte a = s.readByte a := rfl

/-! ## `setDT` -/

@[simp] theorem setDT_v (b : Byte) : (s.setDT b).v = s.v := rfl
@[simp] theorem setDT_pc (b : Byte) : (s.setDT b).pc = s.pc := rfl
@[simp] theorem setDT_i (b : Byte) : (s.setDT b).i = s.i := rfl
@[simp] theorem setDT_stack (b : Byte) : (s.setDT b).stack = s.stack := rfl
@[simp] theorem setDT_sp (b : Byte) : (s.setDT b).sp = s.sp := rfl
@[simp] theorem setDT_dt (b : Byte) : (s.setDT b).dt = b := rfl
@[simp] theorem setDT_st (b : Byte) : (s.setDT b).st = s.st := rfl
@[simp] theorem setDT_mem (b : Byte) : (s.setDT b).mem = s.mem := rfl
@[simp] theorem setDT_disp (b : Byte) : (s.setDT b).disp = s.disp := rfl
@[simp] theorem setDT_dirty (b : Byte) : (s.setDT b).dirty = s.dirty := rfl
@[simp] theorem setDT_key (b : Byte) : (s.setDT b).key = s.key := rfl
@[simp] theorem setDT_err (b : Byte) : (s.setDT b).err = s.err := rfl
@[simp] theorem setDT_cfg (b : Byte) : (s.setDT b).cfg = s.cfg := rfl
@[simp] theorem setDT_rndIn (b : Byte) : (s.setDT b).rndIn = s.rndIn := rfl
@[simp] theorem setDT_draws (b : Byte) : (s.setDT b).draws = s.draws := rfl
@[simp] theorem setDT_reg (b : Byte) (q : Reg) : (s.setDT b).reg q = s.reg q := rfl
@[simp] theorem setDT_readByte (b : Byte) (a : Addr) : (s.setDT b).readByte a = s.readByte a := rfl

/-! ## `setST` -/

@[simp] theorem setST_v (b : Byte) : (s.setST b).v = s.v := rfl
@[simp] theorem setST_pc (b : Byte) : (s.setST b).pc = s.pc := rfl
@[simp] theorem setST_i (b : Byte) : (s.setST b).i = s.i := rfl
@[simp] theorem setST_stack (b : Byte) : (s.setST b).stack = s.stack := rfl
@[simp] theorem setST_sp (b : Byte) : (s.setST b).sp = s.sp := rfl
@[simp] theorem setST_dt (b : Byte) : (s.setST b).dt = s.dt := rfl
@[simp] theorem setST_st (b : Byte) : (s.setST b).st = b := rfl
@[simp] theorem setST_mem (b : Byte) : (s.setST b).mem = s.mem := rfl
@[simp] theorem setST_disp (b : Byte) : (s.setST b).disp = s.disp := rfl
@[simp] theorem setST_dirty (b : Byte) : (s.setST b).dirty = s.dirty := rfl
@[simp] theorem setST_key (b : Byte) : (s.setST b).key = s.key := rfl
@[simp] theorem setST_err (b : Byte) : (s.setST b).err = s.err := rfl
@[simp] theorem setST_cfg (b : Byte) : (s.setST b).cfg = s.cfg := rfl
@[simp] theorem setST_rndIn (b : Byte) : (s.setST b).rndIn = s.rndIn := rfl
@[simp] theorem setST_draws (b : Byte) : (s.setST b).draws = s.draws := rfl
@[simp] theorem setST_reg (b : Byte) (q : Reg) : (s.setST b).reg q = s.reg q := rfl
@[simp] theorem setST_readByte (b : Byte) (a : Addr) : (s.setST b).readByte a = s.readByte a := rfl

/-! ## `tick` -/

@[simp] theorem tick_v : (s.tick).v = s.v := rfl
@[simp] theorem tick_pc : (s.tick).pc = s.pc := rfl
@[simp] theorem tick_i : (s.tick).i = s.i := rfl
@[simp] theorem tick_stack : (s.tick).stack = s.stack := rfl
@[simp] theorem tick_sp : (s.tick).sp = s.sp := rfl
@[simp] theorem tick_dt : (s.tick).dt = countDown s.dt := rfl
@[simp] theorem tick_st : (s.tick).st = countDown s.st := rfl
@[simp] theorem tick_mem : (s.tick).mem = s.mem := rfl
@[simp] theorem tick_disp : (s.tick).disp = s.disp := rfl
@[simp] theorem tick_dirty : (s.tick).dirty = s.dirty := rfl
@[simp] theorem tick_key : (s.tick).key = s.key := rfl
@[simp] theorem tick_err : (s.tick).err = s.err := rfl
@[simp] theorem tick_cfg : (s.tick).cfg = s.cfg := rfl
@[simp] theorem tick_rndIn : (s.tick).rndIn = s.rndIn := rfl
@[simp] theorem tick_draws : (s.tick).draws = s.draws := rfl
@[simp] theorem tick_reg (q : Reg) : (s.tick).reg q = s.reg q := rfl
@[simp] theorem tick_readByte (a : Addr) : (s.tick).readByte a = s.readByte a := rfl

/-! ## `latchKeys` -/

@[simp] theorem latchKeys_v (k : BitVec 16) : (latchKeys k s).v = s.v := rfl
@[simp] theorem latchKeys_pc (k : BitVec 16) : (latchKeys k s).pc = s.pc := rfl
@[simp] theorem latchKeys_i (k : BitVec 16) : (latchKeys k s).i = s.i := rfl
@[simp] theorem latchKeys_stack (k : BitVec 16) : (latchKeys k s).stack = s.stack := rfl
@[simp] theorem latchKeys_sp (k : BitVec 16) : (latchKeys k s).sp = s.sp := rfl
@[simp] theorem latchKeys_dt (k : BitVec 16) : (latchKeys k s).dt = s.dt := rfl
@[simp] theorem latchKeys_st (k : BitVec 16) : (latchKeys k s).st = s.st := rfl
@[simp] theorem latchKeys_mem (k : BitVec 16) : (latchKeys k s).mem = s.mem := rfl
@[simp] theorem latchKeys_disp (k : BitVec 16) : (latchKeys k s).disp = s.disp := rfl
@[simp] theorem latchKeys_dirty (k : BitVec 16) : (latchKeys k s).dirty = s.dirty := rfl
@[simp] theorem latchKeys_key (k : BitVec 16) : (latchKeys k s).key = k := rfl
@[simp] theorem latchKeys_err (k : BitVec 16) : (latchKeys k s).err = s.err := rfl
@[simp] theorem latchKeys_cfg (k : BitVec 16) : (latchKeys k s).cfg = s.cfg := rfl
@[simp] theorem latchKeys_rndIn (k : BitVec 16) : (latchKeys k s).rndIn = s.rndIn := rfl
@[simp] theorem latchKeys_draws (k : BitVec 16) : (latchKeys k s).draws = s.draws := rfl
@[simp] theorem latchKeys_reg (k : BitVec 16) (q : Reg) : (latchKeys k s).reg q = s.reg q := rfl
@[simp] theorem latchKeys_readByte (k : BitVec 16) (a : Addr) : (latchKeys k s).readByte a = s.readByte a := rfl

/-! ## `clearDirty` -/

@[simp] theorem clearDirty_v : (clearDirty s).v = s.v := rfl
@[simp] theorem clearDirty_pc : (clearDirty s).pc = s.pc := rfl
@[simp] theorem clearDirty_i : (clearDirty s).i = s.i := rfl
@[simp] theorem clearDirty_stack : (clearDirty s).stack = s.stack := rfl
@[simp] theorem clearDirty_sp : (clearDirty s).sp = s.sp := rfl
@[simp] theorem clearDirty_dt : (clearDirty s).dt = s.dt := rfl
@[simp] theorem clearDirty_st : (clearDirty s).st = s.st := rfl
@[simp] theorem clearDirty_mem : (clearDirty s).mem = s.mem := rfl
@[simp] theorem clearDirty_disp : (clearDirty s).disp = s.disp := rfl
@[simp] theorem clearDirty_dirty : (clearDirty s).dirty = false := rfl
@[simp] theorem clearDirty_key : (clearDirty s).key = s.key := rfl
@[simp] theorem clearDirty_err : (clearDirty s).err = s.err := rfl
@[simp] theorem clearDirty_cfg : (clearDirty s).cfg = s.cfg := rfl
@[simp] theorem clearDirty_rndIn : (clearDirty s).rndIn = s.rndIn := rfl
@[simp] theorem clearDirty_draws : (clearDirty s).draws = s.draws := rfl
@[simp] theorem clearDirty_reg (q : Reg) : (clearDirty s).reg q = s.reg q := rfl
@[simp] theorem clearDirty_readByte (a : Addr) : (clearDirty s).readByte a = s.readByte a := rfl

/-! ## `hRndSupply` -/

@[simp] theorem hRndSupply_v (r : Byte) : (hRndSupply r s).v = s.v := rfl
@[simp] theorem hRndSupply_pc (r : Byte) : (hRndSupply r s).pc = s.pc := rfl
@[simp] theorem hRndSupply_i (r : Byte) : (hRndSupply r s).i = s.i := rfl
@[simp] theorem hRndSupply_stack (r : Byte) : (hRndSupply r s).stack = s.stack := rfl
@[simp] theorem hRndSupply_sp (r : Byte) : (hRndSupply r s).sp = s.sp := rfl
@[simp] theorem hRndSupply_dt (r : Byte) : (hRndSupply r s).dt = s.dt := rfl
@[simp] theorem hRndSupply_st (r : Byte) : (hRndSupply r s).st = s.st := rfl
@[simp] theorem hRndSupply_mem (r : Byte) : (hRndSupply r s).mem = s.mem := rfl
@[simp] theorem hRndSupply_disp (r : Byte) : (hRndSupply r s).disp = s.disp := rfl
@[simp] theorem hRndSupply_dirty (r : Byte) : (hRndSupply r s).dirty = s.dirty := rfl
@[simp] theorem hRndSupply_key (r : Byte) : (hRndSupply r s).key = s.key := rfl
@[simp] theorem hRndSupply_err (r : Byte) : (hRndSupply r s).err = s.err := rfl
@[simp] theorem hRndSupply_cfg (r : Byte) : (hRndSupply r s).cfg = s.cfg := rfl
@[simp] theorem hRndSupply_rndIn (r : Byte) : (hRndSupply r s).rndIn = s.rndIn ++ [r] := rfl
@[simp] theorem hRndSupply_draws (r : Byte) : (hRndSupply r s).draws = s.draws := rfl
@[simp] theorem hRndSupply_reg (r : Byte) (q : Reg) : (hRndSupply r s).reg q = s.reg q := rfl
@[simp] theorem hRndSupply_readByte (r : Byte) (a : Addr) : (hRndSupply r s).readByte a = s.readByte a := rfl

end Sys2Proof.Machine
end

