-- ==== Sys2Proof/Laws/Memory.lean ====
section
/-! SUPPORT. Memory: a read after a write, and the canonical form. No law needs the canonical form as a premise but the one that
keeps it. -/

namespace Sys2Proof.Machine

/-! ## Lists of cells -/

theorem Memory.find_filter_ne (m : Memory) (a q : Nat) :
    Memory.find (m.filter (fun c => c.1 != a)) q = if q = a then none else Memory.find m q := by
  induction m with
  | nil => simp [Memory.find]
  | cons c rest ih =>
    obtain ⟨k, b⟩ := c
    by_cases hk : k = a
    · subst hk
      by_cases hq : q = k
      · subst hq; simpa [Memory.find] using ih
      · simp [Memory.find, ih, hq]
    · by_cases hq : q = k
      · subst hq; simp [Memory.find, hk]
      · simp [Memory.find, hk, hq, ih]

theorem Memory.find_insert (m : Memory) (a : Nat) (b : Byte) (q : Nat) (h : ∀ c ∈ m, c.1 ≠ a) :
    Memory.find (Memory.insert m a b) q = if q = a then some b else Memory.find m q := by
  induction m with
  | nil => simp [Memory.insert, Memory.find]
  | cons c rest ih =>
    obtain ⟨k, b'⟩ := c
    have hk : k ≠ a := h (k, b') (by simp)
    have ih := ih (fun c hc => h c (by simp [hc]))
    simp only [Memory.insert]
    split
    · simp [Memory.find]
    · by_cases hq : q = k
      · subst hq; simp [Memory.find, hk]
      · simp [Memory.find, hq, ih]

/-- A read after a write: the byte written there, everything else as before (R47, R50). -/
theorem Memory.read_write (font : Font) (m : Memory) (a : Nat) (b : Byte) (q : Nat) :
    Memory.read font (Memory.write font m a b) q = if q = a then b else Memory.read font m q := by
  unfold Memory.read Memory.write
  split
  · next hb =>
    rw [Memory.find_filter_ne]
    by_cases hq : q = a
    · subst hq; simp [hb]
    · simp [hq]
  · next hb =>
    rw [Memory.find_insert _ _ _ _ (by simp), Memory.find_filter_ne]
    by_cases hq : q = a <;> simp [hq]

theorem Memory.mem_insert (m : Memory) (a : Nat) (b : Byte) (c : Host.Cell) :
    c ∈ Memory.insert m a b ↔ c = (a, b) ∨ c ∈ m := by
  induction m with
  | nil => simp [Memory.insert]
  | cons d rest ih =>
    simp only [Memory.insert]
    split
    · simp
    · simp only [List.mem_cons, ih]
      constructor
      · rintro (h | h | h) <;> simp [h]
      · rintro (h | h | h) <;> simp [h]

theorem Memory.insert_rising (m : Memory) (a : Nat) (b : Byte) (h : m.Pairwise (fun c d => c.1 < d.1))
    (ha : ∀ c ∈ m, c.1 ≠ a) : (Memory.insert m a b).Pairwise (fun c d => c.1 < d.1) := by
  induction m with
  | nil => simp [Memory.insert]
  | cons c rest ih =>
    rw [List.pairwise_cons] at h
    have hc : c.1 ≠ a := ha c (by simp)
    simp only [Memory.insert]
    split
    · next hlt =>
      rw [List.pairwise_cons, List.pairwise_cons]
      refine ⟨fun d hd => ?_, h⟩
      rcases List.mem_cons.mp hd with rfl | hd
      · exact hlt
      · exact Nat.lt_trans hlt (h.1 d hd)
    · next hle =>
      rw [List.pairwise_cons]
      refine ⟨fun d hd => ?_, ih h.2 (fun d hd => ha d (by simp [hd]))⟩
      rcases (Memory.mem_insert rest a b d).mp hd with rfl | hd
      · show c.1 < a
        omega
      · exact h.1 d hd

/-- Every write keeps the canonical form. -/
theorem Memory.wf_write (font : Font) (m : Memory) (a : Nat) (b : Byte) (h : Memory.wf font m) (ha : a < memSize) :
    Memory.wf font (Memory.write font m a b) := by
  have hf : (m.filter (fun c => c.1 != a)).Pairwise (fun c d => c.1 < d.1) := h.1.filter _
  unfold Memory.write
  split
  · exact ⟨hf, fun c hc => h.2 c (List.mem_filter.mp hc).1⟩
  · next hb =>
    refine ⟨Memory.insert_rising _ _ _ hf (by simp), fun c hc => ?_⟩
    rcases (Memory.mem_insert _ _ _ _).mp hc with rfl | hc
    · exact ⟨ha, hb⟩
    · exact h.2 c (List.mem_filter.mp hc).1

theorem Memory.wf_nil (font : Font) : Memory.wf font [] := by simp [Memory.wf]

/-! ## The memory of a state -/

/-- R47: "every write followed by a read of the same address returns the written byte"; every other byte is as before. -/
theorem readByte_pokeByte (s : State) (a q : Addr) (b : Byte) :
    (s.pokeByte a b).readByte q = if q = a then b else s.readByte q := by
  simp only [State.readByte, pokeByte_cfg, pokeByte_mem, Memory.read_write, BitVec.toNat_inj]

theorem inv_pokeByte (s : State) (a : Addr) (b : Byte) (h : s.Inv) : (s.pokeByte a b).Inv :=
  Memory.wf_write _ _ _ _ h (by have := a.isLt; simp only [memSize]; omega)

theorem State.storeLands_iff (s : State) (a : Addr) :
    s.storeLands a ↔ (s.cfg.fontWriteProtect && inFont a) = false := by
  unfold State.storeLands inFont
  cases s.cfg.fontWriteProtect
  · simp
  · simp only [Bool.true_and, Bool.and_eq_false_iff, decide_eq_false_iff_not, Bool.true_eq_false, false_or]
    simp only [fontBase, fontLimit]
    omega

theorem storeByte_of_lands (s : State) (a : Addr) (b : Byte) (h : s.storeLands a) : s.storeByte a b = s.pokeByte a b := by
  simp [State.storeByte, (s.storeLands_iff a).mp h]

theorem storeByte_of_not_lands (s : State) (a : Addr) (b : Byte) (h : ¬ s.storeLands a) : s.storeByte a b = s := by
  simp only [State.storeLands_iff, Bool.not_eq_false] at h
  simp [State.storeByte, h]

/-- A store changes memory and nothing else. -/
theorem storeByte_eq (s : State) (a : Addr) (b : Byte) : s.storeByte a b = { s with mem := (s.storeByte a b).mem } := by
  unfold State.storeByte
  split <;> rfl

theorem inv_storeByte (s : State) (a : Addr) (b : Byte) (h : s.Inv) : (s.storeByte a b).Inv := by
  unfold State.storeByte
  split
  · exact h
  · exact inv_pokeByte s a b h

/-- At its own address a store leaves the byte, or the old one where it is turned away (R42, D16). -/
theorem readByte_storeByte_at (s : State) (a : Addr) (b : Byte) :
    (s.storeLands a → (s.storeByte a b).readByte a = b) ∧ (¬ s.storeLands a → (s.storeByte a b).readByte a = s.readByte a) := by
  refine ⟨fun h => ?_, fun h => ?_⟩
  · rw [storeByte_of_lands s a b h, readByte_pokeByte, if_pos rfl]
  · rw [storeByte_of_not_lands s a b h]

/-- At every other address it leaves the old byte (R42). -/
theorem readByte_storeByte_off (s : State) (a q : Addr) (b : Byte) (h : q ≠ a) :
    (s.storeByte a b).readByte q = s.readByte q := by
  by_cases hl : s.storeLands a
  · rw [storeByte_of_lands s a b hl, readByte_pokeByte, if_neg h]
  · rw [storeByte_of_not_lands s a b hl]

@[simp] theorem storeByte_storeLands (s : State) (a q : Addr) (b : Byte) : (s.storeByte a b).storeLands q ↔ s.storeLands q := by
  rw [storeByte_eq]; rfl

/-! ## Byte addresses -/

/-- R41, R54: the base plus the offset, reduced to 12 bits. -/
theorem byteAddr_toNat (base : Word) (k : Nat) : (byteAddr base k).toNat = (base.toNat + k) % 4096 := by
  simp only [byteAddr, BitVec.toNat_setWidth, BitVec.toNat_add, BitVec.toNat_ofNat]
  omega

/-- R127: fewer than 4096 offsets give distinct addresses. -/
theorem byteAddr_inj (base : Word) (j k : Nat) (hj : j < 4096) (hk : k < 4096) : byteAddr base j = byteAddr base k ↔ j = k := by
  rw [← BitVec.toNat_inj, byteAddr_toNat, byteAddr_toNat]
  have := base.isLt
  omega

theorem byteAddr_succ (base : Word) (j k : Nat) : byteAddr base (j + k) = byteAddr (base + BitVec.ofNat 16 j) k := by
  rw [← BitVec.toNat_inj, byteAddr_toNat, byteAddr_toNat, BitVec.toNat_add, BitVec.toNat_ofNat]
  omega

/-! ## Runs of bytes -/

/-- A run of stores changes memory and nothing else. -/
theorem storeBytes_eq (s : State) (base : Word) (k : Nat) (bs : List Byte) :
    s.storeBytes base k bs = { s with mem := (s.storeBytes base k bs).mem } := by
  induction bs generalizing s k with
  | nil => rfl
  | cons b bs ih =>
    rw [State.storeBytes, ih, storeByte_eq]

theorem inv_storeBytes (s : State) (base : Word) (k : Nat) (bs : List Byte) (h : s.Inv) : (s.storeBytes base k bs).Inv := by
  induction bs generalizing s k with
  | nil => exact h
  | cons b bs ih => exact ih _ _ (inv_storeByte s _ b h)

@[simp] theorem storeBytes_storeLands (s : State) (base : Word) (k : Nat) (bs : List Byte) (q : Addr) :
    (s.storeBytes base k bs).storeLands q ↔ s.storeLands q := by
  rw [storeBytes_eq]; rfl

/-- Outside its addresses a run of stores changes no byte (R42). -/
theorem readByte_storeBytes_off (s : State) (base : Word) (k : Nat) (bs : List Byte) (q : Addr)
    (h : ∀ j < bs.length, q ≠ byteAddr base (k + j)) : (s.storeBytes base k bs).readByte q = s.readByte q := by
  induction bs generalizing s k with
  | nil => rfl
  | cons b bs ih =>
    rw [State.storeBytes, ih]
    · exact readByte_storeByte_off s _ q b (h 0 (by simp))
    · intro j hj
      have := h (j + 1) (by simpa using hj)
      rwa [show k + (j + 1) = k + 1 + j from by omega] at this

/-- Inside, it leaves the j-th byte, or the old one where the store is turned away (R42, D16). At most 4096 bytes, so that no
address occurs twice. -/
theorem readByte_storeBytes_at (s : State) (base : Word) (k : Nat) (bs : List Byte) (j : Nat) (hj : j < bs.length)
    (hlen : k + bs.length ≤ 4096) :
    (s.storeLands (byteAddr base (k + j)) → (s.storeBytes base k bs).readByte (byteAddr base (k + j)) = bs[j]) ∧
      (¬ s.storeLands (byteAddr base (k + j)) →
        (s.storeBytes base k bs).readByte (byteAddr base (k + j)) = s.readByte (byteAddr base (k + j))) := by
  induction bs generalizing s k j with
  | nil => simp at hj
  | cons b bs ih =>
    simp only [List.length_cons] at hj hlen
    rw [State.storeBytes]
    cases j with
    | zero =>
      rw [readByte_storeBytes_off]
      · exact readByte_storeByte_at s _ b
      · intro i hi
        rw [Ne, byteAddr_inj base _ _ (by omega) (by omega)]
        omega
    | succ j =>
      have hne : byteAddr base (k + (j + 1)) ≠ byteAddr base k := by
        rw [Ne, byteAddr_inj base _ _ (by omega) (by omega)]
        omega
      have ih := ih (s.storeByte (byteAddr base k) b) (k + 1) j (by omega) (by omega)
      rw [show k + 1 + j = k + (j + 1) from by omega, storeByte_storeLands, readByte_storeByte_off s _ _ b hne] at ih
      simpa using ih

/-- The bytes a transfer reads (R41). -/
@[simp] theorem length_loadBytes (s : State) (base : Word) (n : Nat) : (s.loadBytes base n).length = n := by simp [State.loadBytes]

theorem getElem_loadBytes (s : State) (base : Word) (n j : Nat) (h : j < (s.loadBytes base n).length) :
    (s.loadBytes base n)[j] = s.readByte (byteAddr base j) := by
  simp [State.loadBytes]

theorem placeBytes_eq (s : State) (a : Nat) (bs : List Byte) :
    s.placeBytes a bs = { s with mem := (s.placeBytes a bs).mem } := by
  induction bs generalizing s a with
  | nil => rfl
  | cons b bs ih => rw [State.placeBytes, ih]; rfl

theorem inv_placeBytes (s : State) (a : Nat) (bs : List Byte) (h : s.Inv) : (s.placeBytes a bs).Inv := by
  induction bs generalizing s a with
  | nil => exact h
  | cons b bs ih => exact ih _ _ (inv_pokeByte s _ b h)

/-- A loaded image (R163): byte `k` at `a + k`, every other byte as before. -/
theorem readByte_placeBytes (s : State) (a : Nat) (bs : List Byte) (q : Addr) (hlen : a + bs.length ≤ 4096) :
    (s.placeBytes a bs).readByte q =
      if h : a ≤ q.toNat ∧ q.toNat < a + bs.length then bs[q.toNat - a]'(by omega) else s.readByte q := by
  induction bs generalizing s a with
  | nil =>
    rw [dif_neg (by simp only [List.length_nil]; omega)]
    rfl
  | cons b bs ih =>
    simp only [List.length_cons] at hlen ⊢
    rw [State.placeBytes, ih _ _ (by omega), readByte_pokeByte]
    have hq : q = BitVec.ofNat 12 a ↔ q.toNat = a := by
      rw [← BitVec.toNat_inj, BitVec.toNat_ofNat]
      omega
    simp only [hq]
    by_cases h1 : q.toNat = a
    · simp only [h1, if_true]
      rw [dif_neg (by omega), dif_pos (by omega)]
      simp
    · by_cases h2 : a ≤ q.toNat ∧ q.toNat < a + (bs.length + 1)
      · have h3 : a + 1 ≤ q.toNat ∧ q.toNat < a + 1 + bs.length := by omega
        rw [dif_pos h3, dif_pos h2]
        have : q.toNat - a = (q.toNat - (a + 1)) + 1 := by omega
        simp only [this, List.getElem_cons_succ]
      · have h3 : ¬ (a + 1 ≤ q.toNat ∧ q.toNat < a + 1 + bs.length) := by omega
        rw [dif_neg h3, dif_neg h2, if_neg h1]

/-- The word a cycle fetches is the one placed at `PC` (R43). -/
theorem fetchWord_placeWord (s : State) (w : Word) : (s.placeWord w).fetchWord = w := by
  have hne : byteAddr s.pc 0 ≠ byteAddr s.pc 1 := by rw [Ne, byteAddr_inj _ _ _ (by omega) (by omega)]; omega
  simp only [State.placeWord, State.fetchWord, pokeByte_pc, readByte_pokeByte, if_neg hne, if_true, highByte, lowByte]
  apply BitVec.eq_of_getLsbD_eq
  intro k hk
  simp only [BitVec.getLsbD_append, BitVec.getLsbD_extractLsb']
  by_cases h8 : k < 8
  · simp [h8]
  · simp [h8, show k - 8 < 8 by omega, show 8 + (k - 8) = k by omega]

theorem placeWord_eq (s : State) (w : Word) : s.placeWord w = { s with mem := (s.placeWord w).mem } := rfl

theorem inv_placeWord (s : State) (w : Word) (h : s.Inv) : (s.placeWord w).Inv :=
  inv_pokeByte _ _ _ (inv_pokeByte _ _ _ h)

end Sys2Proof.Machine
end

