-- ==== Sys2Proof/Laws/Registers.lean ====
section
/-! SUPPORT. Registers, flags, stack, timers, keys and the random input: one law per shared operation that says all it does. -/

namespace Sys2Proof.Machine

/-! ## General registers -/

/-- A write to one register (R10). -/
theorem reg_setReg (s : State) (r q : Reg) (b : Byte) : (s.setReg r b).reg q = if q = r then b else s.reg q := by
  simp only [State.reg, State.setReg, Vector.getElem_set, Fin.ext_iff, eq_comm]

/-- Result, then flag (R102): VF always ends with the flag. -/
theorem reg_setRegFlag (s : State) (x q : Reg) (b f : Byte) :
    (s.setRegFlag x b f).reg q = if q = vf then f else if q = x then b else s.reg q := by
  simp only [State.setRegFlag, reg_setReg]

/-- Register writes change the registers and nothing else. -/
theorem setRegs_eq (s : State) (k : Nat) (bs : List Byte) : s.setRegs k bs = { s with v := (s.setRegs k bs).v } := by
  induction bs generalizing s k with
  | nil => rfl
  | cons b bs ih => rw [State.setRegs, ih]; rfl

/-- A run of register writes from register `k` on (R126). -/
theorem reg_setRegs (s : State) (k : Nat) (bs : List Byte) (q : Reg) (h : k + bs.length ≤ 16) :
    (s.setRegs k bs).reg q = if hq : k ≤ q.val ∧ q.val < k + bs.length then bs[q.val - k]'(by omega) else s.reg q := by
  induction bs generalizing s k with
  | nil =>
    rw [dif_neg (by simp only [List.length_nil]; omega)]
    rfl
  | cons b bs ih =>
    simp only [List.length_cons] at h ⊢
    have hk : q = Fin.ofNat 16 k ↔ q.val = k := by
      rw [Fin.ext_iff, Fin.val_ofNat, Nat.mod_eq_of_lt (by omega)]
    rw [State.setRegs, ih _ _ (by omega), reg_setReg]
    simp only [hk]
    by_cases h1 : q.val = k
    · simp only [h1, if_true]
      rw [dif_neg (by omega), dif_pos (by omega)]
      simp
    · by_cases h2 : k ≤ q.val ∧ q.val < k + (bs.length + 1)
      · have h3 : k + 1 ≤ q.val ∧ q.val < k + 1 + bs.length := by omega
        rw [dif_pos h3, dif_pos h2]
        have : q.val - k = (q.val - (k + 1)) + 1 := by omega
        simp only [this, List.getElem_cons_succ]
      · have h3 : ¬ (k + 1 ≤ q.val ∧ q.val < k + 1 + bs.length) := by omega
        rw [dif_neg h3, dif_neg h2, if_neg h1]

@[simp] theorem length_regsUpTo (s : State) (x : Reg) : (s.regsUpTo x).length = x.val + 1 := by simp [State.regsUpTo]

/-- The registers a dump stores (R125). -/
theorem getElem_regsUpTo (s : State) (x : Reg) (j : Nat) (h : j < (s.regsUpTo x).length) :
    (s.regsUpTo x)[j] = s.reg (Fin.ofNat 16 j) := by simp [State.regsUpTo]

/-! ## Flags -/

theorem flagByte_eq_one (c : Bool) : flagByte c = 1 ↔ c = true := by cases c <;> decide
theorem flagByte_eq_zero (c : Bool) : flagByte c = 0 ↔ c = false := by cases c <;> decide
/-- R11: a flag is 1 or 0. -/
theorem flagByte_cases (c : Bool) : flagByte c = 0 ∨ flagByte c = 1 := by cases c <;> decide

/-! ## Call stack -/

theorem recordOverflow_eq (s : State) : s.recordOverflow = { s with err := s.err ||| 0b01 } := by
  unfold State.recordOverflow; split; rfl

theorem recordUnderflow_eq (s : State) : s.recordUnderflow = { s with err := s.err ||| 0b10 } := by
  unfold State.recordUnderflow; split; rfl

theorem push_of_room (s : State) (w : Word) (h : s.sp.val < 16) :
    s.push w = { s with stack := s.stack.set s.sp.val w, sp := ⟨s.sp.val + 1, by omega⟩ } := by
  simp only [State.push, h, dif_pos]

theorem push_of_full (s : State) (w : Word) (h : s.sp.val = 16) : s.push w = { s with err := s.err ||| 0b01 } := by
  simp [State.push, h, recordOverflow_eq]

/-- All a push can do (R91, R92). -/
theorem push_cases (s : State) (w : Word) :
    (∃ h : s.sp.val < 16, s.push w = { s with stack := s.stack.set s.sp.val w, sp := ⟨s.sp.val + 1, by omega⟩ }) ∨
      (s.sp.val = 16 ∧ s.push w = { s with err := s.err ||| 0b01 }) := by
  by_cases h : s.sp.val < 16
  · exact .inl ⟨h, push_of_room s w h⟩
  · have h16 : s.sp.val = 16 := by have := s.sp.isLt; omega
    exact .inr ⟨h16, push_of_full s w h16⟩

theorem pop_of_live (s : State) (h : 0 < s.sp.val) :
    s.pop = some (s.stack[s.sp.val - 1]'(by have := s.sp.isLt; omega),
      { s with sp := ⟨s.sp.val - 1, by have := s.sp.isLt; omega⟩ }) := by
  simp only [State.pop, h, dif_pos]

theorem pop_of_empty (s : State) (h : s.sp.val = 0) : s.pop = none := by simp [State.pop, h]

/-! ## Timers -/

/-- R151: "decrements by 1 ... while > 0; never decrements below 0". -/
theorem toNat_countDown (b : Byte) : (countDown b).toNat = b.toNat - 1 := by
  unfold countDown
  split
  · next h => subst h; rfl
  · next h =>
    have : b.toNat ≠ 0 := fun h0 => h (BitVec.eq_of_toNat_eq h0)
    have := b.isLt
    rw [BitVec.toNat_sub]
    show (2 ^ 8 - 1 % 2 ^ 8 + b.toNat) % 2 ^ 8 = b.toNat - 1
    omega

/-! ## Random input -/

theorem nextRnd_supplied (s : State) (r : Byte) (rs : List Byte) (h : s.rndIn = r :: rs) : s.nextRnd = r := by
  simp [State.nextRnd, h]

theorem consumeRnd_supplied (s : State) (r : Byte) (rs : List Byte) (h : s.rndIn = r :: rs) :
    s.consumeRnd = { s with rndIn := rs } := by simp [State.consumeRnd, h]

theorem consumeRnd_free (s : State) (h : s.rndIn = []) : s.consumeRnd = { s with draws := s.draws + 1 } := by
  simp [State.consumeRnd, h]

/-- A draw changes the model's two input fields and nothing else. -/
theorem consumeRnd_eq (s : State) :
    s.consumeRnd = { s with rndIn := s.consumeRnd.rndIn, draws := s.consumeRnd.draws } := by
  unfold State.consumeRnd
  split <;> rfl

/-! ## Keys -/

/-- R146: the low four bits. -/
theorem keyNumber_val (b : Byte) : (keyNumber b).val = b.toNat % 16 := by
  simp [keyNumber]

theorem waitedKey_eq (s : State) : s.waitedKey = (List.range 16).find? fun k => s.key.getLsbD k := by
  unfold State.waitedKey; split; rfl

/-- R143: the key reported is the least pressed one. -/
theorem waitedKey_some (s : State) (k : Nat) :
    s.waitedKey = some k ↔ k < 16 ∧ s.key.getLsbD k = true ∧ ∀ j < k, s.key.getLsbD j = false := by
  rw [waitedKey_eq, List.find?_range_eq_some]
  simp only [List.mem_range, Bool.not_eq_eq_eq_not, Bool.not_true]
  constructor
  · rintro ⟨h1, h2, h3⟩
    exact ⟨h2, h1, fun j hj => by simpa using h3 j hj⟩
  · rintro ⟨h1, h2, h3⟩
    exact ⟨h2, h1, fun j hj => by simpa using h3 j hj⟩

/-- R143: none is reported exactly when no key is down. -/
theorem waitedKey_none (s : State) : s.waitedKey = none ↔ s.key = 0 := by
  rw [waitedKey_eq, List.find?_eq_none]
  simp only [List.mem_range, Bool.not_eq_true]
  constructor
  · intro h
    apply BitVec.eq_of_getLsbD_eq
    intro k hk
    simpa using h k hk
  · intro h k _
    simp [h]

end Sys2Proof.Machine
end

