-- ==== Sys2Proof/Laws/Display.lean ====
section
/-! SUPPORT. The display and the sprite unit: a pixel after a toggle, the pixels a sprite sets, and what drawing them leaves. -/

namespace Sys2Proof.Machine

/-! ## One pixel -/

/-- A toggle changes its own pixel and no other (R131). -/
theorem pixel_toggle (d : Display) (y q : Fin 32) (x p : Fin 64) :
    (Display.toggle d y x).pixel q p = if q = y ∧ p = x then !d.pixel q p else d.pixel q p := by
  simp only [Display.toggle, Display.pixel, Vector.getElem_set]
  by_cases hq : q = y
  · subst hq
    by_cases hp : p = x
    · subst hp; simp
    · have : p.val ≠ x.val := fun h => hp (Fin.ext h)
      simp [hp, this]
  · have : y.val ≠ q.val := fun h => hq (Fin.ext h.symm)
    simp [hq, this]

@[simp] theorem pixel_blank (y : Fin 32) (x : Fin 64) : Display.blank.pixel y x = false := by
  simp [Display.blank, Display.pixel]

/-- Two displays are equal when their 2048 pixels are. -/
theorem display_ext (d e : Display) (h : ∀ y x, d.pixel y x = e.pixel y x) : d = e := by
  apply Vector.ext
  intro y hy
  apply BitVec.eq_of_getLsbD_eq
  intro x hx
  exact h ⟨y, hy⟩ ⟨x, hx⟩

/-! ## A list of pixels -/

/-- Note the collision at a pixel and toggle it. -/
def Canvas.put (c : Canvas) (p : Fin 32 × Fin 64) : Canvas := ⟨Display.toggle c.disp p.1 p.2, c.hit || c.disp.pixel p.1 p.2⟩

/-- Drawing pixels no two of which are the same (R132 (h)): each listed pixel is inverted, and the collision is noted when one of
them was set before. -/
theorem foldl_put (l : List (Fin 32 × Fin 64)) (hl : l.Nodup) (c : Canvas) :
    (∀ y x, (l.foldl Canvas.put c).disp.pixel y x = (c.disp.pixel y x ^^ decide ((y, x) ∈ l))) ∧
      (l.foldl Canvas.put c).hit = (c.hit || l.any fun p => c.disp.pixel p.1 p.2) := by
  induction l generalizing c with
  | nil => simp
  | cons p l ih =>
    obtain ⟨hp, hl⟩ := List.nodup_cons.mp hl
    obtain ⟨hpix, hhit⟩ := ih hl (c.put p)
    refine ⟨fun y x => ?_, ?_⟩
    · rw [List.foldl_cons, hpix, Canvas.put, pixel_toggle]
      by_cases h : (y, x) = p
      · subst h
        simp [hp]
      · have hne : ¬ (y = p.1 ∧ x = p.2) := fun hh => h (Prod.ext hh.1 hh.2)
        rw [if_neg hne]
        simp [List.mem_cons, h]
    · rw [List.foldl_cons, hhit, List.any_cons]
      have hany : (l.any fun q => (c.put p).disp.pixel q.1 q.2) = l.any fun q => c.disp.pixel q.1 q.2 := by
        rw [Bool.eq_iff_iff, List.any_eq_true, List.any_eq_true]
        refine exists_congr fun q => and_congr_right fun hq => ?_
        have hne : ¬ (q.1 = p.1 ∧ q.2 = p.2) := fun hh => hp (by rwa [← Prod.ext hh.1 hh.2])
        rw [Canvas.put, pixel_toggle, if_neg hne]
      rw [hany, Canvas.put, Bool.or_assoc]

/-! ## The pixels of a sprite -/

/-- The pixels one sprite byte sets (R131). -/
def rowPixels (vx vy : Byte) (row : Nat) (b : Byte) : List (Fin 32 × Fin 64) :=
  ((List.range 8).filter (spriteBit b)).map fun col => (pixelRow vy row, pixelColumn vx col)

/-- The pixels a sprite sets. -/
def spritePixels (vx vy : Byte) (row : Nat) : List Byte → List (Fin 32 × Fin 64)
  | [] => []
  | b :: bs => rowPixels vx vy row b ++ spritePixels vx vy (row + 1) bs

theorem drawRow_eq (vx vy : Byte) (row : Nat) (b : Byte) (c : Canvas) :
    drawRow vx vy row b c = (rowPixels vx vy row b).foldl Canvas.put c := by
  rw [drawRow, rowPixels, List.foldl_map, List.foldl_filter]
  rfl

theorem drawRows_eq (vx vy : Byte) (row : Nat) (bs : List Byte) (c : Canvas) :
    drawRows vx vy row bs c = (spritePixels vx vy row bs).foldl Canvas.put c := by
  induction bs generalizing row c with
  | nil => rfl
  | cons b bs ih => rw [drawRows, ih, spritePixels, List.foldl_append, drawRow_eq]

theorem mem_rowPixels (vx vy : Byte) (row : Nat) (b : Byte) (y : Fin 32) (x : Fin 64) :
    (y, x) ∈ rowPixels vx vy row b ↔ pixelRow vy row = y ∧ ∃ col < 8, spriteBit b col = true ∧ pixelColumn vx col = x := by
  simp only [rowPixels, List.mem_map, List.mem_filter, List.mem_range, Prod.mk.injEq]
  constructor
  · rintro ⟨col, ⟨h1, h2⟩, h3, h4⟩
    exact ⟨h3, col, h1, h2, h4⟩
  · rintro ⟨h3, col, h1, h2, h4⟩
    exact ⟨col, ⟨h1, h2⟩, h3, h4⟩

theorem mem_spritePixels (vx vy : Byte) (row : Nat) (bs : List Byte) (y : Fin 32) (x : Fin 64) :
    (y, x) ∈ spritePixels vx vy row bs ↔
      ∃ j, ∃ h : j < bs.length, pixelRow vy (row + j) = y ∧
        ∃ col < 8, spriteBit bs[j] col = true ∧ pixelColumn vx col = x := by
  induction bs generalizing row with
  | nil => simp [spritePixels]
  | cons b bs ih =>
    rw [spritePixels, List.mem_append, mem_rowPixels, ih]
    constructor
    · rintro (h | ⟨j, hj, h⟩)
      · exact ⟨0, by simp, h⟩
      · exact ⟨j + 1, by simpa using hj, by rw [show row + (j + 1) = row + 1 + j from by omega]; exact h⟩
    · rintro ⟨j, hj, h⟩
      cases j with
      | zero => exact .inl h
      | succ j =>
        refine .inr ⟨j, by simpa using hj, ?_⟩
        rw [show row + 1 + j = row + (j + 1) from by omega]
        exact h

theorem pixelRow_inj (vy : Byte) (i j : Nat) (hi : i < 32) (hj : j < 32) (h : pixelRow vy i = pixelRow vy j) : i = j := by
  simp only [pixelRow, Fin.ext_iff, Fin.val_ofNat] at h
  omega

theorem pixelColumn_inj (vx : Byte) (i j : Nat) (hi : i < 64) (hj : j < 64) (h : pixelColumn vx i = pixelColumn vx j) : i = j := by
  simp only [pixelColumn, Fin.ext_iff, Fin.val_ofNat] at h
  omega

theorem nodup_rowPixels (vx vy : Byte) (row : Nat) (b : Byte) : (rowPixels vx vy row b).Nodup := by
  rw [rowPixels, List.Nodup, List.pairwise_map]
  refine (List.nodup_range.filter _).imp_of_mem ?_
  intro i j hi hj hne h
  have hi := List.mem_range.mp (List.mem_filter.mp hi).1
  have hj := List.mem_range.mp (List.mem_filter.mp hj).1
  exact hne (pixelColumn_inj vx i j (by omega) (by omega) (Prod.mk.inj h).2)

/-- R132 (h): "the 8 columns of a row are distinct modulo 64 and the at most 15 rows are distinct modulo 32". -/
theorem nodup_spritePixels (vx vy : Byte) (row : Nat) (bs : List Byte) (h : row + bs.length ≤ 32) :
    (spritePixels vx vy row bs).Nodup := by
  induction bs generalizing row with
  | nil => simp [spritePixels]
  | cons b bs ih =>
    simp only [List.length_cons] at h
    rw [spritePixels, List.nodup_append]
    refine ⟨nodup_rowPixels vx vy row b, ih _ (by omega), ?_⟩
    rintro ⟨y, x⟩ hp q hq rfl
    obtain ⟨j, hj, hy, _⟩ := (mem_spritePixels _ _ _ _ _ _).mp hq
    have := ((mem_rowPixels _ _ _ _ _ _).mp hp).1
    have := pixelRow_inj vy row (row + 1 + j) (by omega) (by omega) (this.trans hy.symm)
    omega

/-! ## DRW -/

/-- The pixels DRW inverts are the set bits of its sprite (R131). -/
theorem mem_spritePixels_iff_spriteSets (s : State) (x y : Reg) (n : Fin 16) (py : Fin 32) (px : Fin 64) :
    (py, px) ∈ spritePixels (s.reg x) (s.reg y) 0 (s.loadBytes s.i n.val) ↔ s.spriteSets x y n py px := by
  rw [mem_spritePixels]
  constructor
  · rintro ⟨row, hrow, hy, col, hcol, hbit, hx⟩
    rw [getElem_loadBytes] at hbit
    refine ⟨row, col, by simpa using hrow, hcol, ?_, ?_, hbit⟩
    · simpa [pixelColumn, Fin.ext_iff] using hx
    · simpa [pixelRow, Fin.ext_iff] using hy
  · rintro ⟨row, col, hrow, hcol, hx, hy, hbit⟩
    refine ⟨row, by simpa using hrow, ?_, col, hcol, ?_, ?_⟩
    · simpa [pixelRow, Fin.ext_iff] using hy
    · rw [getElem_loadBytes]
      exact hbit
    · simpa [pixelColumn, Fin.ext_iff] using hx

/-- All DRW does to the display, and its collision (R131, R132). -/
theorem drawn_spec (s : State) (x y : Reg) (n : Fin 16) :
    (∀ py px, (s.drawn x y n).disp.pixel py px = true ↔ ¬ (s.disp.pixel py px = true ↔ s.spriteSets x y n py px)) ∧
      ((s.drawn x y n).hit = true ↔ ∃ py px, s.disp.pixel py px = true ∧ s.spriteSets x y n py px) := by
  have hnd : (spritePixels (s.reg x) (s.reg y) 0 (s.loadBytes s.i n.val)).Nodup :=
    nodup_spritePixels _ _ _ _ (by have := n.isLt; simp only [length_loadBytes]; omega)
  obtain ⟨hpix, hhit⟩ := foldl_put _ hnd ⟨s.disp, false⟩
  rw [State.drawn, drawRows_eq]
  refine ⟨fun py px => ?_, ?_⟩
  · rw [hpix, ← mem_spritePixels_iff_spriteSets]
    by_cases hm : (py, px) ∈ spritePixels (s.reg x) (s.reg y) 0 (s.loadBytes s.i n.val) <;>
      cases s.disp.pixel py px <;> simp [hm]
  · rw [hhit, Bool.false_or, List.any_eq_true]
    constructor
    · rintro ⟨⟨py, px⟩, hm, hd⟩
      exact ⟨py, px, hd, (mem_spritePixels_iff_spriteSets _ _ _ _ _ _).mp hm⟩
    · rintro ⟨py, px, hd, hm⟩
      exact ⟨(py, px), (mem_spritePixels_iff_spriteSets _ _ _ _ _ _).mpr hm, hd⟩

/-! ## The grid the host reads -/

/-- R160: bit `64 * y + x` of rows put together is column `x` of row `y`. -/
theorem getLsbD_gridOfRows (rows : List (BitVec 64)) (y x : Nat) (hy : y < rows.length) (hx : x < 64) (hl : rows.length ≤ 32) :
    (gridOfRows rows).getLsbD (64 * y + x) = rows[y].getLsbD x := by
  induction rows generalizing y with
  | nil => simp at hy
  | cons row rows ih =>
    simp only [List.length_cons] at hy hl
    rw [gridOfRows, BitVec.getLsbD_or, BitVec.getLsbD_shiftLeft, BitVec.getLsbD_setWidth]
    cases y with
    | zero => simp [hx]; omega
    | succ y =>
      have h1 : 64 * (y + 1) + x - 64 = 64 * y + x := by omega
      have h2 : row.getLsbD (64 * (y + 1) + x) = false := BitVec.getLsbD_of_ge _ _ (by omega)
      rw [h1, ih y (by omega) (by omega), h2]
      simp
      omega

theorem getLsbD_grid (s : State) (y : Fin 32) (x : Fin 64) :
    s.grid.getLsbD (64 * y.val + x.val) = s.disp.pixel y x := by
  rw [State.grid, getLsbD_gridOfRows _ _ _ (by simp) x.isLt (by simp)]
  simp [Display.pixel]

end Sys2Proof.Machine
end

