-- ==== Sys2Proof/Laws/PerInstr.lean ====
section
/-! SUPPORT. The statements made per instruction (LAWS.json). WellFormedLine: every instruction's assembler line is well-formed
(30_encoding.md rule R70), so that nothing is shut out of a statement about all instructions. -/

namespace Sys2Proof.Laws.WellFormedLine

/-- The line of the instruction is well-formed. -/
def Statement (i : Instr) : Prop := i.wellFormed = true

theorem fits_v (k : Nat) (r : Fin 16) : Operand.fits k (.v r.val) = true := by simp [Operand.fits]

theorem fits_num {w : Nat} (b : BitVec w) : Operand.fits w (.num b.toNat) = true := by simp [Operand.fits, b.isLt]

theorem fits_nibble (n : Fin 16) : Operand.fits 4 (.num n.val) = true := by simp [Operand.fits]

theorem all_one {p : Operand → Bool} {a : Operand} (h : p a = true) : [a].all p = true := by simp [h]

theorem all_two {p : Operand → Bool} {a c : Operand} (h : p a = true) (k : p c = true) : [a, c].all p = true := by simp [h, k]

theorem all_three {p : Operand → Bool} {a c d : Operand} (h : p a = true) (k : p c = true) (l : p d = true) :
    [a, c, d].all p = true := by simp [h, k, l]

theorem cls : Statement .cls := rfl
theorem ret : Statement .ret := rfl
theorem jp (nnn : Addr) : Statement (.jp nnn) :=
  show [.num nnn.toNat].all (Operand.fits 12) = true from all_one (fits_num nnn)
theorem call (nnn : Addr) : Statement (.call nnn) :=
  show [.num nnn.toNat].all (Operand.fits 12) = true from all_one (fits_num nnn)
theorem seImm (x : Reg) (nn : Byte) : Statement (.seImm x nn) :=
  show [.v x.val, .num nn.toNat].all (Operand.fits 8) = true from all_two (fits_v _ x) (fits_num nn)
theorem sneImm (x : Reg) (nn : Byte) : Statement (.sneImm x nn) :=
  show [.v x.val, .num nn.toNat].all (Operand.fits 8) = true from all_two (fits_v _ x) (fits_num nn)
theorem seReg (x y : Reg) : Statement (.seReg x y) :=
  show [.v x.val, .v y.val].all (Operand.fits 0) = true from all_two (fits_v _ x) (fits_v _ y)
theorem ldImm (x : Reg) (nn : Byte) : Statement (.ldImm x nn) :=
  show [.v x.val, .num nn.toNat].all (Operand.fits 8) = true from all_two (fits_v _ x) (fits_num nn)
theorem addImm (x : Reg) (nn : Byte) : Statement (.addImm x nn) :=
  show [.v x.val, .num nn.toNat].all (Operand.fits 8) = true from all_two (fits_v _ x) (fits_num nn)
theorem ldReg (x y : Reg) : Statement (.ldReg x y) :=
  show [.v x.val, .v y.val].all (Operand.fits 0) = true from all_two (fits_v _ x) (fits_v _ y)
theorem orReg (x y : Reg) : Statement (.orReg x y) :=
  show [.v x.val, .v y.val].all (Operand.fits 0) = true from all_two (fits_v _ x) (fits_v _ y)
theorem andReg (x y : Reg) : Statement (.andReg x y) :=
  show [.v x.val, .v y.val].all (Operand.fits 0) = true from all_two (fits_v _ x) (fits_v _ y)
theorem xorReg (x y : Reg) : Statement (.xorReg x y) :=
  show [.v x.val, .v y.val].all (Operand.fits 0) = true from all_two (fits_v _ x) (fits_v _ y)
theorem addReg (x y : Reg) : Statement (.addReg x y) :=
  show [.v x.val, .v y.val].all (Operand.fits 0) = true from all_two (fits_v _ x) (fits_v _ y)
theorem subReg (x y : Reg) : Statement (.subReg x y) :=
  show [.v x.val, .v y.val].all (Operand.fits 0) = true from all_two (fits_v _ x) (fits_v _ y)
theorem shr (x y : Reg) : Statement (.shr x y) :=
  show [.v x.val, .v y.val].all (Operand.fits 0) = true from all_two (fits_v _ x) (fits_v _ y)
theorem subn (x y : Reg) : Statement (.subn x y) :=
  show [.v x.val, .v y.val].all (Operand.fits 0) = true from all_two (fits_v _ x) (fits_v _ y)
theorem shl (x y : Reg) : Statement (.shl x y) :=
  show [.v x.val, .v y.val].all (Operand.fits 0) = true from all_two (fits_v _ x) (fits_v _ y)
theorem sneReg (x y : Reg) : Statement (.sneReg x y) :=
  show [.v x.val, .v y.val].all (Operand.fits 0) = true from all_two (fits_v _ x) (fits_v _ y)
theorem ldI (nnn : Addr) : Statement (.ldI nnn) :=
  show [.i, .num nnn.toNat].all (Operand.fits 12) = true from all_two rfl (fits_num nnn)
theorem jpV0 (nnn : Addr) : Statement (.jpV0 nnn) :=
  show [.v 0, .num nnn.toNat].all (Operand.fits 12) = true from all_two rfl (fits_num nnn)
theorem rnd (x : Reg) (nn : Byte) : Statement (.rnd x nn) :=
  show [.v x.val, .num nn.toNat].all (Operand.fits 8) = true from all_two (fits_v _ x) (fits_num nn)
theorem drw (x y : Reg) (n : Fin 16) : Statement (.drw x y n) :=
  show [.v x.val, .v y.val, .num n.val].all (Operand.fits 4) = true from all_three (fits_v _ x) (fits_v _ y) (fits_nibble n)
theorem skp (x : Reg) : Statement (.skp x) :=
  show [.v x.val].all (Operand.fits 0) = true from all_one (fits_v _ x)
theorem sknp (x : Reg) : Statement (.sknp x) :=
  show [.v x.val].all (Operand.fits 0) = true from all_one (fits_v _ x)
theorem ldVxDT (x : Reg) : Statement (.ldVxDT x) :=
  show [.v x.val, .dt].all (Operand.fits 0) = true from all_two (fits_v _ x) rfl
theorem ldVxK (x : Reg) : Statement (.ldVxK x) :=
  show [.v x.val, .k].all (Operand.fits 0) = true from all_two (fits_v _ x) rfl
theorem ldDT (x : Reg) : Statement (.ldDT x) :=
  show [.dt, .v x.val].all (Operand.fits 0) = true from all_two rfl (fits_v _ x)
theorem ldST (x : Reg) : Statement (.ldST x) :=
  show [.st, .v x.val].all (Operand.fits 0) = true from all_two rfl (fits_v _ x)
theorem addI (x : Reg) : Statement (.addI x) :=
  show [.i, .v x.val].all (Operand.fits 0) = true from all_two rfl (fits_v _ x)
theorem ldF (x : Reg) : Statement (.ldF x) :=
  show [.f, .v x.val].all (Operand.fits 0) = true from all_two rfl (fits_v _ x)
theorem ldB (x : Reg) : Statement (.ldB x) :=
  show [.b, .v x.val].all (Operand.fits 0) = true from all_two rfl (fits_v _ x)
theorem ldMemVx (x : Reg) : Statement (.ldMemVx x) :=
  show [.memI, .v x.val].all (Operand.fits 0) = true from all_two rfl (fits_v _ x)
theorem ldVxMem (x : Reg) : Statement (.ldVxMem x) :=
  show [.v x.val, .memI].all (Operand.fits 0) = true from all_two (fits_v _ x) rfl

/-- The case split over the 34 constructors. -/
theorem all (i : Instr) : Statement i := by
  cases i with
  | cls => exact WellFormedLine.cls
  | ret => exact WellFormedLine.ret
  | jp nnn => exact WellFormedLine.jp nnn
  | call nnn => exact WellFormedLine.call nnn
  | seImm x nn => exact WellFormedLine.seImm x nn
  | sneImm x nn => exact WellFormedLine.sneImm x nn
  | seReg x y => exact WellFormedLine.seReg x y
  | ldImm x nn => exact WellFormedLine.ldImm x nn
  | addImm x nn => exact WellFormedLine.addImm x nn
  | ldReg x y => exact WellFormedLine.ldReg x y
  | orReg x y => exact WellFormedLine.orReg x y
  | andReg x y => exact WellFormedLine.andReg x y
  | xorReg x y => exact WellFormedLine.xorReg x y
  | addReg x y => exact WellFormedLine.addReg x y
  | subReg x y => exact WellFormedLine.subReg x y
  | shr x y => exact WellFormedLine.shr x y
  | subn x y => exact WellFormedLine.subn x y
  | shl x y => exact WellFormedLine.shl x y
  | sneReg x y => exact WellFormedLine.sneReg x y
  | ldI nnn => exact WellFormedLine.ldI nnn
  | jpV0 nnn => exact WellFormedLine.jpV0 nnn
  | rnd x nn => exact WellFormedLine.rnd x nn
  | drw x y n => exact WellFormedLine.drw x y n
  | skp x => exact WellFormedLine.skp x
  | sknp x => exact WellFormedLine.sknp x
  | ldVxDT x => exact WellFormedLine.ldVxDT x
  | ldVxK x => exact WellFormedLine.ldVxK x
  | ldDT x => exact WellFormedLine.ldDT x
  | ldST x => exact WellFormedLine.ldST x
  | addI x => exact WellFormedLine.addI x
  | ldF x => exact WellFormedLine.ldF x
  | ldB x => exact WellFormedLine.ldB x
  | ldMemVx x => exact WellFormedLine.ldMemVx x
  | ldVxMem x => exact WellFormedLine.ldVxMem x

end Sys2Proof.Laws.WellFormedLine
end

