-- ==== Sys2Proof/Laws/Step.lean ====
section
/-! SUPPORT. The cycle: what the fetch depends on, which execute step runs, and what H_LOAD answers. -/

namespace Sys2Proof.Machine

/-! ## Fetch -/

/-- R41, R54: the address of the byte after the last is the first. -/
theorem byteAddr_eq_ofNat (base : Word) (k : Nat) : byteAddr base k = BitVec.ofNat 12 (base.toNat + k) := by
  rw [← BitVec.toNat_inj, byteAddr_toNat, BitVec.toNat_ofNat]

/-- The word fetched is the two bytes decoded together (R43, R44). -/
theorem decode_fetchWord (s : State) : decode s.fetchWord = decodeBytes (s.readByte (byteAddr s.pc 0)) (s.readByte (byteAddr s.pc 1)) :=
  rfl

/-- Two states with the same `PC` and the same bytes fetch the same word. -/
theorem fetchWord_congr {s t : State} (hpc : t.pc = s.pc) (hmem : ∀ a, t.readByte a = s.readByte a) : t.fetchWord = s.fetchWord := by
  simp only [State.fetchWord, hpc, hmem]

/-! ## Execute and tick -/

@[simp] theorem endCycle_next (s : State) : endCycle (.next s) = .next s.tick := rfl

theorem endCycle_eq_next (o : Host.Outcome State Fault Refusal) (t : State) :
    endCycle o = .next t ↔ ∃ u, o = .next u ∧ t = u.tick := by
  cases o <;> simp [endCycle, eq_comm]

theorem step_of_ok {s : State} {i : Instr} (h : decode s.fetchWord = .ok i) : step s = endCycle (exec i s) := by
  simp only [step, h]

theorem step_of_error {s : State} {e : Unrecognised} (h : decode s.fetchWord = .error e) : step s = .next s.advance.tick := by
  simp only [step, h, execUnrecognised, endCycle_next]

/-! ## H_LOAD (R163) -/

theorem hLoad_of_bad {bytes : List Byte} (s : State) (h : bytes.length = 0 ∨ progMax < bytes.length) :
    hLoad bytes s = .loadError := if_pos h

theorem hLoad_of_good {bytes : List Byte} (s : State) (h : ¬ (bytes.length = 0 ∨ progMax < bytes.length)) :
    hLoad bytes s = .loaded (s.placeBytes progBase bytes) := if_neg h

end Sys2Proof.Machine
end

