-- ==== Sys2Proof/Laws/WellFormed.lean ====
section
/-! SUPPORT. What a shape says of the operands it was read from (30_encoding.md rules R64, R70): one law per shape function, and when
a numeral fits its field. -/

namespace Sys2Proof

theorem jpShape_cases {ops : List Operand} {sh : Shape} (h : jpShape ops = some sh) :
    (∃ a, ops = [.num a] ∧ sh = .addr) ∨ (∃ a, ops = [.v 0, .num a] ∧ sh = .zeroAddr) := by
  unfold jpShape at h
  split at h <;> cases h
  · exact .inl ⟨_, rfl, rfl⟩
  · exact .inr ⟨_, rfl, rfl⟩

theorem arithShape_cases {ops : List Operand} {sh : Shape} (h : arithShape ops = some sh) :
    (∃ x a, ops = [.v x, .num a] ∧ sh = .regImm) ∨ (∃ x y, ops = [.v x, .v y] ∧ sh = .regReg) ∨
      (∃ x, ops = [.i, .v x] ∧ sh = .indexReg) := by
  unfold arithShape at h
  split at h <;> cases h
  · exact .inl ⟨_, _, rfl, rfl⟩
  · exact .inr (.inl ⟨_, _, rfl, rfl⟩)
  · exact .inr (.inr ⟨_, rfl, rfl⟩)

theorem regRegShape_cases {ops : List Operand} {sh : Shape} (h : regRegShape ops = some sh) :
    ∃ x y, ops = [.v x, .v y] ∧ sh = .regReg := by
  unfold regRegShape at h
  split at h <;> cases h
  exact ⟨_, _, rfl, rfl⟩

theorem ldShape_cases {ops : List Operand} {sh : Shape} (h : ldShape ops = some sh) :
    (∃ x a, ops = [.v x, .num a] ∧ sh = .regImm) ∨ (∃ x y, ops = [.v x, .v y] ∧ sh = .regReg) ∨
      (∃ x, ops = [.v x, .dt] ∧ sh = .regDT) ∨ (∃ x, ops = [.v x, .k] ∧ sh = .regK) ∨
      (∃ x, ops = [.v x, .memI] ∧ sh = .regMem) ∨ (∃ a, ops = [.i, .num a] ∧ sh = .indexAddr) ∨
      (∃ x, ops = [.dt, .v x] ∧ sh = .dtReg) ∨ (∃ x, ops = [.st, .v x] ∧ sh = .stReg) ∨
      (∃ x, ops = [.f, .v x] ∧ sh = .fReg) ∨ (∃ x, ops = [.b, .v x] ∧ sh = .bReg) ∨
      (∃ x, ops = [.memI, .v x] ∧ sh = .memReg) := by
  unfold ldShape at h
  split at h <;> cases h <;> simp

/-- A register number as written is 0 to 15 (R70). -/
theorem fits_register (bits r : Nat) : Operand.fits bits (.v r) = true ↔ r < 16 := by simp [Operand.fits]

/-- "Numerals must fit 8, 12 and 4 bits" (R70). -/
theorem fits_numeral (bits m : Nat) : Operand.fits bits (.num m) = true ↔ m < 2 ^ bits := by simp [Operand.fits]

end Sys2Proof
end

