-- ==== Sys2Proof/Tests/Slice0.lean ====
section
/-! SUPPORT. Tests. The words are written out bit by bit from the rows of 30_encoding.md rule R64; the expected results are the
vectors of 95_test_vectors.md (S, T-…) or a rule's own example. The last part holds, for every statement with hypotheses, a state
and operands that meet them. -/

namespace Sys2Proof.Tests

open Sys2Proof.Machine

/-! ## Helpers -/

/-- One cycle from the state with the word placed at `PC`, and a check of the state after it. -/
def after (w : Nat) (s : State) (p : State → Bool) : Bool :=
  match step (s.withFetchWord 16 w) with
  | .next t => p t
  | .fault _ => false
  | .refused _ => false

/-- The reset state with some registers set. -/
def regs (l : List (Reg × Byte)) : State := l.foldl (fun s c => s.setReg c.1 c.2) State.reset

/-- A state with bytes at 0x300 and `I` = 0x300. -/
def at300 (bytes : List Byte) (s : State) : State := (s.placeBytes 0x300 bytes).setIndex 0x300

/-- A display with the listed pixels, (column, row), lit. -/
def lit (l : List (Fin 64 × Fin 32)) : Display := l.foldl (fun d c => Display.toggle d c.2 c.1) Display.blank

/-- The default configuration with the other value of `SHIFT_SOURCE`, of `ADDI_SETS_VF` and of `FONT_WRITE_PROTECT`. -/
def shiftVX : Config := { defaultConfig with shiftSource := .vx }
def setsVF : Config := { defaultConfig with addISetsVF := true }
def protectFont : Config := { defaultConfig with fontWriteProtect := true }

/-! ## Decoding: R64, rows 1 to 34, one word each, bit by bit -/

theorem test_decode_Z : decode 0b0000000011100000#16 = .ok .cls ∧ decode 0b0000000011101110#16 = .ok .ret := ⟨rfl, rfl⟩

theorem test_decode_A :
    decode 0b0001101010111100#16 = .ok (.jp 0xABC) ∧ decode 0b0010001000010000#16 = .ok (.call 0x210) ∧
    decode 0b1010001100000000#16 = .ok (.ldI 0x300) ∧ decode 0b1011001000110100#16 = .ok (.jpV0 0x234) := ⟨rfl, rfl, rfl, rfl⟩

theorem test_decode_XI :
    decode 0b0011001100101010#16 = .ok (.seImm 3 0x2A) ∧ decode 0b0100001100101010#16 = .ok (.sneImm 3 0x2A) ∧
    decode 0b0110101001010101#16 = .ok (.ldImm 0xA 0x55) ∧ decode 0b0111000000000010#16 = .ok (.addImm 0 2) ∧
    decode 0b1100001100001111#16 = .ok (.rnd 3 0x0F) := ⟨rfl, rfl, rfl, rfl, rfl⟩

theorem test_decode_XY_skips :
    decode 0b0101000100100000#16 = .ok (.seReg 1 2) ∧ decode 0b1001000100100000#16 = .ok (.sneReg 1 2) := ⟨rfl, rfl⟩

theorem test_decode_XY_8 :
    decode 0b1000000100100000#16 = .ok (.ldReg 1 2) ∧ decode 0b1000000100100001#16 = .ok (.orReg 1 2) ∧
    decode 0b1000000100100010#16 = .ok (.andReg 1 2) ∧ decode 0b1000000100100011#16 = .ok (.xorReg 1 2) ∧
    decode 0b1000000100100100#16 = .ok (.addReg 1 2) ∧ decode 0b1000000100100101#16 = .ok (.subReg 1 2) ∧
    decode 0b1000000100100110#16 = .ok (.shr 1 2) ∧ decode 0b1000000100100111#16 = .ok (.subn 1 2) ∧
    decode 0b1000000100101110#16 = .ok (.shl 1 2) := ⟨rfl, rfl, rfl, rfl, rfl, rfl, rfl, rfl, rfl⟩

theorem test_decode_XYN : decode 0b1101010110100111#16 = .ok (.drw 5 0xA 7) := rfl

theorem test_decode_X_E : decode 0b1110001110011110#16 = .ok (.skp 3) ∧ decode 0b1110001110100001#16 = .ok (.sknp 3) := ⟨rfl, rfl⟩

theorem test_decode_X_F :
    decode 0b1111001100000111#16 = .ok (.ldVxDT 3) ∧ decode 0b1111001100001010#16 = .ok (.ldVxK 3) ∧
    decode 0b1111001100010101#16 = .ok (.ldDT 3) ∧ decode 0b1111001100011000#16 = .ok (.ldST 3) ∧
    decode 0b1111001100011110#16 = .ok (.addI 3) ∧ decode 0b1111001100101001#16 = .ok (.ldF 3) ∧
    decode 0b1111001100110011#16 = .ok (.ldB 3) ∧ decode 0b1111001101010101#16 = .ok (.ldMemVx 3) ∧
    decode 0b1111001101100101#16 = .ok (.ldVxMem 3) := ⟨rfl, rfl, rfl, rfl, rfl, rfl, rfl, rfl, rfl⟩

/-- T-ENC-1's words, each with its group of R67. -/
theorem test_decode_unrecognised :
    decode 0x0000 = .error .family0 ∧ decode 0x00E1 = .error .family0 ∧ decode 0x00EF = .error .family0 ∧
    decode 0x0123 = .error .family0 ∧ decode 0x0FFF = .error .family0 ∧ decode 0x5AB1 = .error .family5 ∧
    decode 0x9AB1 = .error .family9 ∧ decode 0x8AB8 = .error .family8 ∧ decode 0x8ABF = .error .family8 ∧
    decode 0xE19D = .error .familyE ∧ decode 0xE0A2 = .error .familyE ∧ decode 0xF000 = .error .familyF ∧
    decode 0xF1FF = .error .familyF ∧ decode 0xF166 = .error .familyF :=
  ⟨rfl, rfl, rfl, rfl, rfl, rfl, rfl, rfl, rfl, rfl, rfl, rfl, rfl, rfl⟩

/-- T-ENC-3. -/
theorem test_fields :
    fieldOp 0xD5A7 = 0xD ∧ fieldX 0xD5A7 = 5 ∧ fieldY 0xD5A7 = 0xA ∧ fieldN 0xD5A7 = 7 ∧ fieldNN 0xD5A7 = 0xA7 ∧
    fieldNNN 0xD5A7 = 0x5A7 ∧ wordBytes 0xD5A7 = [0xD5, 0xA7] := by decide

/-- R64's rows are 34, and the table's own mask and match read a word as the decoder does. -/
theorem test_table : opcodeTable.length = 34 ∧ tableDecode 0xD5A7 = some (.drw 5 0xA 7) ∧ tableDecode 0x5AB1 = none := by decide

/-- The two bytes of the host's word, first byte first; longer words do not exist. -/
theorem test_decodeTableWord : decodeTableWord 16 0x1ABC = some (.jp 0xABC) ∧ decodeTableWord 16 0x5AB1 = none ∧
    decodeTableWord 32 0x1ABC = none := by decide

/-- Program P5: the image bytes of a listing with a DW. -/
theorem test_image : image [.instr (.ldImm 0 0x62), .instr (.ldMemVx 1), .dw 0, .db 0x12] = [0x60, 0x62, 0xF1, 0x55, 0, 0, 0x12] := by
  decide

/-! ## WellFormed: a refused line for each check (R70) -/

theorem test_ill_register : AsmLine.wellFormed ⟨.LD, [.v 16, .num 0]⟩ = false := by decide
theorem test_ill_immediate : AsmLine.wellFormed ⟨.ADD, [.v 0, .num 256]⟩ = false := by decide
theorem test_ill_address : AsmLine.wellFormed ⟨.JP, [.num 4096]⟩ = false := by decide
theorem test_ill_row_count : AsmLine.wellFormed ⟨.DRW, [.v 0, .v 1, .num 16]⟩ = false := by decide
theorem test_ill_offset_register : AsmLine.wellFormed ⟨.JP, [.v 1, .num 0]⟩ = false := by decide
theorem test_ill_shape : AsmLine.wellFormed ⟨.OR, [.v 0, .num 1]⟩ = false ∧ AsmLine.wellFormed ⟨.CLS, [.v 0]⟩ = false ∧
    AsmLine.wellFormed ⟨.LD, [.dt, .k]⟩ = false ∧ assemble ⟨.SUB, [.i, .v 0]⟩ = none := by decide
theorem test_well_formed : AsmLine.wellFormed ⟨.LD, [.v 15, .num 255]⟩ = true ∧ assemble ⟨.JP, [.num 4095]⟩ = some (.jp 0xFFF) ∧
    assemble ⟨.DRW, [.v 0, .v 0, .num 5]⟩ = some (.drw 0 0 5) := by decide

/-! ## Control transfer (T-CTL-…) -/

theorem test_jp : after 0x1ABC State.reset (fun t => t.pc == 0x0ABC && t.sp == 0 && t.err == 0) = true := by decide
theorem test_call : after 0x2210 (State.reset.setPc 0x0204)
    (fun t => t.pc == 0x0210 && t.sp == 1 && t.stack[0] == 0x0206 && t.stack[1] == 0) = true := by decide
theorem test_call_full : after 0x2400 { (State.reset.setPc 0x0300) with sp := 16 }
    (fun t => t.pc == 0x0400 && t.sp == 16 && t.err == 1 && t.stack == Vector.replicate 16 0) = true := by decide
theorem test_ret : after 0x00EE { (State.reset.setPc 0x0212) with sp := 1, stack := State.reset.stack.set 0 0x0206 }
    (fun t => t.pc == 0x0206 && t.sp == 0 && t.stack[0] == 0x0206) = true := by decide
theorem test_ret_empty : after 0x00EE State.reset (fun t => t.pc == 0x0202 && t.sp == 0 && t.err == 2) = true := by decide
theorem test_se_imm : after 0x332A (regs [(3, 0x2A)]) (fun t => t.pc == 0x0204) = true ∧
    after 0x332A (regs [(3, 0x2B)]) (fun t => t.pc == 0x0202) = true := by decide
theorem test_sne_imm : after 0x432A (regs [(3, 0x2A)]) (fun t => t.pc == 0x0202) = true ∧
    after 0x4300 (regs [(3, 0x2A)]) (fun t => t.pc == 0x0204) = true := by decide
theorem test_se_reg : after 0x5120 (regs [(1, 7), (2, 7)]) (fun t => t.pc == 0x0204) = true ∧
    after 0x5121 (regs [(1, 7), (2, 7)]) (fun t => t.pc == 0x0202) = true := by decide
theorem test_sne_reg : after 0x9120 (regs [(1, 7), (2, 7)]) (fun t => t.pc == 0x0202) = true ∧
    after 0x9120 (regs [(1, 7), (2, 8)]) (fun t => t.pc == 0x0204) = true := by decide
theorem test_skip_wraps : after 0x3000 (State.reset.setPc 0xFFFE) (fun t => t.pc == 0x0002) = true := by decide
theorem test_jp_v0 : after 0xB234 (regs [(0, 0xFF)]) (fun t => t.pc == 0x0333) = true ∧
    after 0xBFFF (regs [(0, 0xFF)]) (fun t => t.pc == 0x10FE) = true := by decide

/-! ## Registers, arithmetic, random (T-ALU-…) -/

theorem test_ld_imm : after 0x6A55 State.reset (fun t => t.reg 0xA == 0x55 && t.pc == 0x0202) = true := by decide
theorem test_add_imm : after 0x7105 (regs [(1, 0xFE), (15, 0x33)]) (fun t => t.reg 1 == 3 && t.reg 15 == 0x33) = true := by decide
theorem test_ld_reg : after 0x8120 (regs [(1, 1), (2, 0x9C), (15, 7)]) (fun t => t.reg 1 == 0x9C && t.reg 15 == 7) = true := by decide
theorem test_or : after 0x8121 (regs [(1, 0x0F), (2, 0xF0), (15, 1)]) (fun t => t.reg 1 == 0xFF && t.reg 15 == 0) = true := by decide
theorem test_or_into_vf : after 0x8F21 (regs [(15, 0x0F), (2, 0xF0)]) (fun t => t.reg 15 == 0) = true := by decide
theorem test_and : after 0x8122 (regs [(1, 0x3C), (2, 0x0F), (15, 1)]) (fun t => t.reg 1 == 0x0C && t.reg 15 == 0) = true := by decide
theorem test_xor : after 0x8123 (regs [(1, 0xFF), (2, 0x0F), (15, 1)]) (fun t => t.reg 1 == 0xF0 && t.reg 15 == 0) = true := by decide
theorem test_add : after 0x8124 (regs [(1, 0xFF), (2, 1)]) (fun t => t.reg 1 == 0 && t.reg 15 == 1) = true := by decide
theorem test_add_into_vf : after 0x8F14 (regs [(15, 0x80), (1, 3)]) (fun t => t.reg 15 == 0) = true := by decide
theorem test_sub : after 0x8125 (regs [(1, 1), (2, 2), (15, 1)]) (fun t => t.reg 1 == 0xFF && t.reg 15 == 0) = true := by decide
theorem test_sub_equal : after 0x8125 (regs [(1, 7), (2, 7)]) (fun t => t.reg 1 == 0 && t.reg 15 == 1) = true := by decide
theorem test_subn : after 0x8127 (regs [(1, 5), (2, 2), (15, 1)]) (fun t => t.reg 1 == 0xFD && t.reg 15 == 0) = true ∧
    after 0x8127 (regs [(1, 2), (2, 5)]) (fun t => t.reg 1 == 3 && t.reg 15 == 1) = true := by decide
theorem test_shr : after 0x8126 (regs [(1, 0x55), (2, 0x81)])
    (fun t => t.reg 1 == 0x40 && t.reg 2 == 0x81 && t.reg 15 == 1) = true := by decide
theorem test_shl : after 0x812E (regs [(1, 0x55), (2, 0x81)])
    (fun t => t.reg 1 == 0x02 && t.reg 2 == 0x81 && t.reg 15 == 1) = true := by decide
/-- R109: with `SHIFT_SOURCE` = `VX` the register itself is shifted, and `y` is ignored. -/
theorem test_shr_vx : after 0x8126 ((regs [(2, 0x80)]).setReg 1 3 |> fun s => { s with cfg := shiftVX })
    (fun t => t.reg 1 == 1 && t.reg 15 == 1) = true := by decide
theorem test_rnd : after 0xC30F (hRndSupply 0xA7 State.reset) (fun t => t.reg 3 == 7 && t.rndIn == []) = true ∧
    after 0xC3FF (hRndSupply 0x5A State.reset) (fun t => t.reg 3 == 0x5A) = true := by decide

/-! ## Index register and memory (T-IDX-…) -/

theorem test_ld_i : after 0xAFFF State.reset (fun t => t.i == 0x0FFF) = true := by decide
theorem test_add_i : after 0xF31E ((regs [(3, 5), (15, 7)]).setIndex 0xFFFE) (fun t => t.i == 3 && t.reg 15 == 7) = true := by decide
/-- D6: with `ADDI_SETS_VF` = `true`. -/
theorem test_add_i_vf : after 0xF31E { ((regs [(3, 1)]).setIndex 0x0FFF) with cfg := setsVF }
    (fun t => t.i == 0x1000 && t.reg 15 == 1) = true := by decide
theorem test_ld_f : after 0xF529 (regs [(5, 0x0A)]) (fun t => t.i == 0x0082) = true ∧
    after 0xF529 (regs [(5, 0xFF)]) (fun t => t.i == 0x054B) = true := by decide
theorem test_ld_b : after 0xF433 ((regs [(4, 0xFF)]).setIndex 0x0300) (fun t => t.loadBytes 0x0300 3 == [2, 5, 5] && t.i == 0x0300) = true := by
  decide
theorem test_ld_b_wraps : after 0xF433 ((regs [(4, 0x7B)]).setIndex 0x0FFF)
    (fun t => t.readByte 0xFFF == 1 && t.readByte 0 == 2 && t.readByte 1 == 3) = true := by decide
theorem test_store_registers : after 0xF355 ((regs [(0, 0x11), (1, 0x22), (2, 0x33), (3, 0x44)]).setIndex 0x0FFE)
    (fun t => t.readByte 0xFFE == 0x11 && t.readByte 0xFFF == 0x22 && t.readByte 0 == 0x33 && t.readByte 1 == 0x44 && t.i == 0x1002) =
    true := by decide
/-- D16: with `FONT_WRITE_PROTECT` = `true` the byte at 0x050 stays, the one at 0x04F is written. -/
theorem test_store_protected : after 0xF155 { ((regs [(0, 0x12), (1, 0x34)]).setIndex 0x004F) with cfg := protectFont }
    (fun t => t.readByte 0x04F == 0x12 && t.readByte 0x050 == 0xF0 && t.i == 0x0051) = true := by decide
theorem test_load_registers : after 0xF265 (at300 [0xC0, 0xC1, 0xC2, 0xC3] (regs [(3, 0x99)]))
    (fun t => t.regsUpTo 3 == [0xC0, 0xC1, 0xC2, 0x99] && t.i == 0x0303) = true := by decide
theorem test_load_registers_font : after 0xF465 (State.reset.setIndex 0x0050)
    (fun t => t.regsUpTo 4 == [0xF0, 0x90, 0x90, 0x90, 0xF0] && t.i == 0x0055) = true := by decide

/-! ## Display (T-DSP-…) -/

theorem test_cls : after 0x00E0 { State.reset with disp := lit [(5, 5)] } (fun t => t.disp == Display.blank && t.dirty) = true := by
  decide
theorem test_drw_wraps : after 0xD011 (at300 [0xFF] (regs [(0, 0x3C), (1, 0x1E)]))
    (fun t => t.disp == lit [(60, 30), (61, 30), (62, 30), (63, 30), (0, 30), (1, 30), (2, 30), (3, 30)] && t.reg 15 == 0 && t.dirty) =
    true := by decide
theorem test_drw_collision : after 0xD011 (at300 [0xC0] { State.reset with disp := lit [(0, 0)] })
    (fun t => t.disp == lit [(1, 0)] && t.reg 15 == 1) = true := by decide

/-! ## Keys and timers (T-KEY-…) -/

theorem test_skp : after 0xE39E (latchKeys 0x0020 (regs [(3, 0xF5)])) (fun t => t.pc == 0x0204) = true ∧
    after 0xE39E (latchKeys 0xFFDF (regs [(3, 5)])) (fun t => t.pc == 0x0202) = true := by decide
theorem test_sknp : after 0xE3A1 (latchKeys 0x0020 (regs [(3, 5)])) (fun t => t.pc == 0x0202) = true ∧
    after 0xE3A1 (regs [(3, 5)]) (fun t => t.pc == 0x0204) = true := by decide
theorem test_ld_vx_dt : after 0xF307 (State.reset.setDT 0x2A) (fun t => t.reg 3 == 0x2A && t.dt == 0x29) = true ∧
    after 0xF307 State.reset (fun t => t.reg 3 == 0 && t.dt == 0) = true := by decide
theorem test_ld_vx_k : after 0xF30A (latchKeys 0x1200 (regs [(3, 0x77)])) (fun t => t.reg 3 == 9 && t.pc == 0x0202) = true := by decide
theorem test_ld_vx_k_waits : after 0xF30A { (regs [(3, 0x77)]) with dt := 5, st := 1 }
    (fun t => t.pc == 0x0200 && t.dt == 4 && t.st == 0 && t.reg 3 == 0x77) = true := by decide
theorem test_ld_dt : after 0xF315 (regs [(3, 0x10)]) (fun t => t.dt == 0x0F) = true ∧
    after 0xF315 ((regs []).setDT 9) (fun t => t.dt == 0) = true := by decide
theorem test_ld_st : after 0xF318 (regs [(3, 3)]) (fun t => t.st == 2 && t.soundActive) = true ∧
    after 0xF018 (regs [(0, 1)]) (fun t => t.st == 0 && !t.soundActive) = true := by decide

/-! ## Fetch and unrecognised words (T-ENC-1, T-MEM-…) -/

theorem test_unrecognised : after 0xF12A { State.reset with i := 0x0123, dt := 2, st := 2 }
    (fun t => t.pc == 0x0202 && t.dt == 1 && t.st == 1 && t.i == 0x0123 && t.v == State.reset.v && !t.dirty) = true := by decide
theorem test_fetch_wraps : after 0x6A55 (State.reset.setPc 0x0FFF) (fun t => t.reg 0xA == 0x55 && t.pc == 0x1001) = true := by decide
theorem test_fetch_odd : after 0x6B77 (State.reset.setPc 0x0201) (fun t => t.reg 0xB == 0x77 && t.pc == 0x0203) = true := by decide

/-! ## Host operations (T-HOST-…) -/

theorem test_load_error : hLoad [] State.reset = .loadError ∧ hLoad (List.replicate 3585 0x12) State.reset = .loadError := by
  refine ⟨if_pos (.inl rfl), if_pos (.inr ?_)⟩
  rw [List.length_replicate, progMax]
  decide
/-- T-HOST-2, on two of its pixels: bits 64 * 30 + 60 and 64 * 30 + 3. -/
theorem test_display_read : (hDisplayRead { State.reset with disp := lit [(60, 30), (3, 30)], dirty := true }).1 =
    ⟨BitVec.twoPow 2048 1980 ||| BitVec.twoPow 2048 1923, true⟩ := by decide +kernel
theorem test_reset_clears : (hReset { (State.reset.pokeByte 0x200 0x12) with err := 3 }).readByte 0x200 = 0 ∧
    (hReset { (State.reset.pokeByte 0x200 0x12) with err := 3 }).err = 0 := by decide

/-! ## Witnesses: for each statement with hypotheses, states and operands that meet them together, each clause at an edge -/

/-- BCD of 255 at 0x300: a state whose memory lists bytes, with the word F033 at 0x200. -/
def bcdState : State := ((regs [(0, 0xFF)]).setIndex 0x300).withFetchWord 16 0xF033

/-- A CALL at 0x0206 when the stack has room for one more. -/
def deepState : State := { (State.reset.setPc 0x0206) with sp := 15 }

/-- EncodeInvertsDecode. -/
theorem test_witness_decoded_word : decode 0x1FFF = .ok (.jp 0xFFF) ∧ decode 0xD5A7 = .ok (.drw 5 0xA 7) := ⟨rfl, rfl⟩

/-- DecoderFollowsOpcodeMap: a word a row matches, and one no row matches. -/
theorem test_witness_opcode_map : (∃ r ∈ opcodeTable, r.matches 0xF165 = true) ∧ ∀ r ∈ opcodeTable, r.matches 0x5AB1 = false := by decide

/-- UnrecognisedWordsExactly: each group at an edge of its range. -/
theorem test_witness_unrecognised :
    (fieldOp 0x00E1 = 0x0 ∧ (0x00E1 : Word) ≠ 0x00E0 ∧ (0x00E1 : Word) ≠ 0x00EE) ∧ (fieldOp 0x5001 = 0x5 ∧ fieldN 0x5001 ≠ 0) ∧
    (fieldOp 0x900F = 0x9 ∧ fieldN 0x900F ≠ 0) ∧ (fieldOp 0x800F = 0x8 ∧ fieldN 0x800F = 0xF) ∧
    (fieldOp 0xE09F = 0xE ∧ fieldNN 0xE09F ≠ 0x9E ∧ fieldNN 0xE09F ≠ 0xA1) ∧
    (fieldOp 0xF066 = 0xF ∧ fieldNN 0xF066 ∉ [(0x07 : Byte), 0x0A, 0x15, 0x18, 0x1E, 0x29, 0x33, 0x55, 0x65]) := by decide

/-- StepRunsDecodedInstruction, at the last address, so that the second byte comes from address 0. -/
theorem test_witness_step :
    ∃ t, decodeBytes (((State.reset.setPc 0x0FFF).withFetchWord 16 0x6A55).readByte (BitVec.ofNat 12 0x0FFF))
        (((State.reset.setPc 0x0FFF).withFetchWord 16 0x6A55).readByte (BitVec.ofNat 12 (0x0FFF + 1))) = .ok (.ldImm 0xA 0x55) ∧
      exec (.ldImm 0xA 0x55) ((State.reset.setPc 0x0FFF).withFetchWord 16 0x6A55) = .next t := ⟨_, rfl, rfl⟩

/-- UnrecognisedWordIsNoOperation: reset memory at 0x200. -/
theorem test_witness_no_operation : decode State.reset.fetchWord = .error .family0 := rfl

/-- TimersCountCycles: two cycles over empty memory with `DT` = 5 and `ST` = 1. -/
theorem test_witness_timers_count : ∀ j < 2, ∀ u : State, Sys2Proof.core.run j { State.reset with dt := 5, st := 1 } = .next u →
    ∀ x, decode u.fetchWord ≠ .ok (.ldDT x) ∧ decode u.fetchWord ≠ .ok (.ldST x) := by
  intro j hj u hu x
  have hj : j = 0 ∨ j = 1 := by omega
  have hd : decode u.fetchWord = .error .family0 := by
    rcases hj with rfl | rfl <;> cases hu <;> rfl
  rw [hd]
  exact ⟨nofun, nofun⟩

/-- StepKeepsCanonicalMemory, with bytes listed before and after. -/
theorem test_witness_canonical_step : bcdState.Inv ∧ ∃ t, step bcdState = .next t ∧ t.mem.length = 5 := ⟨by decide, _, rfl, by decide⟩

/-- HostMovesKeepCanonicalMemory: a load over listed bytes. -/
theorem test_witness_canonical_load : bcdState.Inv ∧ HostMove.load [0x12, 0x34] ≠ .step ∧
    ∃ t, hostMove (.load [0x12, 0x34]) bcdState = .next t := ⟨by decide, nofun, _, rfl⟩

/-- ResetState: the edges of its three address ranges. -/
theorem test_witness_reset_ranges : State.reset.readByte 0x04F = 0 ∧ State.reset.readByte 0x050 = 0xF0 ∧ State.reset.readByte 0x09F = 0x80 ∧
    State.reset.readByte 0x0A0 = 0 ∧ State.reset.readByte 0xFFF = 0 := by decide

/-- StateInvariantsUnderEveryMove: both bits of `ERR` set before a move that is no reset and no timer load. -/
theorem test_witness_invariants : HostMove.step ≠ .reset ∧ State.ovf { State.reset with err := 3 } = true ∧
    State.unf { State.reset with err := 3 } = true ∧ decode (State.fetchWord { State.reset with err := 3 }) = .error .family0 :=
  ⟨nofun, rfl, rfl, rfl⟩

/-- ErrSetOnlyByStackMisuse: a CALL with `SP` = 16 and a RET with `SP` = 0. -/
theorem test_witness_err : decode (State.fetchWord { (State.reset.withFetchWord 16 0x2400) with sp := 16 }) = .ok (.call 0x400) ∧
    decode (State.reset.withFetchWord 16 0x00EE).fetchWord = .ok .ret := ⟨rfl, rfl⟩

/-- DirtyIsConservative: a cycle that leaves `DIRTY` = 0, with pixels lit. -/
theorem test_witness_dirty : HostMove.step ≠ .displayRead ∧ HostMove.step ≠ .reset ∧
    ∃ t, hostMove .step { State.reset with disp := lit [(0, 0)] } = .next t ∧ t.dirty = false := ⟨nofun, nofun, _, rfl, rfl⟩

/-- DeadStackEntriesUnobservable: one live entry, and another value in the first entry that is not live. -/
theorem test_witness_dead_stack : SameButDeadStack { State.reset with sp := 1 }
    { State.reset with sp := 1, stack := State.reset.stack.set 1 0x0206 } := by
  refine ⟨?_, rfl⟩
  intro k h hk
  have hk : k < 1 := hk
  have hk : k = 0 := by omega
  subst hk
  rfl

/-- UnreadStateAffectsNothing: all three differ. -/
theorem test_witness_unread : SameButUnread State.reset { State.reset with err := 3, dirty := true, st := 9 } := rfl

/-- SelfJumpOnlyRunsTimers: `JP 200` at 0x200. -/
theorem test_witness_self_jump : State.AtSelfJump (State.reset.withFetchWord 16 0x1200) 0x200 := ⟨rfl, rfl⟩

/-- StoreSeenByNextFetch: program P5 at 0x206. -/
theorem test_witness_self_modifying :
    decode (((State.reset.setPc 0x206).setIndex 0x208).withFetchWord 16 0xF155).fetchWord = .ok (.ldMemVx 1) ∧
    (((State.reset.setPc 0x206).setIndex 0x208).withFetchWord 16 0xF155).storeLands (byteAddr 0x208 0) ∧
    (((State.reset.setPc 0x206).setIndex 0x208).withFetchWord 16 0xF155).storeLands (byteAddr 0x208 1) ∧ (0x208 : Word) = 0x206 + 2 :=
  ⟨rfl, .inl rfl, .inl rfl, rfl⟩

/-- CallPushesReturnAddress and ReturnMatchesCall: the last free entry, and no free entry. -/
theorem test_witness_call : deepState.sp.val < 16 ∧ (State.sp { deepState with sp := 16 }).val = 16 := by decide
theorem test_witness_call_return : ∃ t u : State, exec (.call 0x300) deepState = .next t ∧ u.stack = t.stack ∧ u.sp = t.sp ∧
    u.pc ≠ t.pc := ⟨_, (State.setPc { deepState with stack := deepState.stack.set 15 0x0208, sp := 16 } 0x0302), rfl, rfl, rfl, by decide⟩

/-- ReturnPopsProgramCounter: the least and the greatest live `SP`, and the empty stack. -/
theorem test_witness_return : (1 : Fin 17).val = (0 : Fin 16).val + 1 ∧ (16 : Fin 17).val = (15 : Fin 16).val + 1 ∧
    State.reset.sp.val = 0 := by decide

/-- SkipsOnImmediate and SkipsOnRegisters: both ways. -/
theorem test_witness_skips : (regs [(3, 0x2A)]).reg 3 = 0x2A ∧ (regs [(3, 0x2B)]).reg 3 ≠ 0x2A ∧
    (regs [(1, 7), (2, 7)]).reg 1 = (regs [(1, 7), (2, 7)]).reg 2 ∧ (regs [(1, 7), (2, 8)]).reg 1 ≠ (regs [(1, 7), (2, 8)]).reg 2 := by
  decide

/-- LogicClearsVF, AddSetsCarry, SubtractSetsNotBorrow, ShiftByOne: a destination that is not VF; and both shift sources. -/
theorem test_witness_not_vf : (14 : Reg) ≠ vf ∧ State.reset.cfg.shiftSource = .vy ∧ shiftVX.shiftSource = .vx := by decide

/-- RandomIsMaskedInput: no byte settled, and one settled. -/
theorem test_witness_random : State.reset.rndIn = [] ∧ (hRndSupply 0xA7 State.reset).rndIn = [0xA7] := ⟨rfl, rfl⟩

/-- AddToIndex and AddToIndexSettingVF: both configurations. -/
theorem test_witness_add_index : State.reset.cfg.addISetsVF = false ∧ setsVF.addISetsVF = true := ⟨rfl, rfl⟩

/-- StoreDecimalDigits, StoreRegisters, RegisterRoundTrip: a protected font table, at and just outside its two edges. -/
theorem test_witness_store_lands : State.storeLands { State.reset with cfg := protectFont } 0x04F ∧
    ¬ State.storeLands { State.reset with cfg := protectFont } 0x050 ∧ ¬ State.storeLands { State.reset with cfg := protectFont } 0x09F ∧
    State.storeLands { State.reset with cfg := protectFont } 0x0A0 ∧ State.reset.storeLands 0x050 := by
  simp only [State.storeLands]
  decide

/-- RegisterRoundTrip: `I` put back is a state of the kind its inner clause speaks of. -/
theorem test_witness_round_trip : ∃ t, exec (.ldMemVx 15) (State.reset.setIndex 0x0FF8) = .next t ∧
    (t.setIndex 0x0FF8).i = (State.reset.setIndex 0x0FF8).i ∧ ∀ a, (t.setIndex 0x0FF8).readByte a = t.readByte a := by
  have hi : ∀ t : State, (t.setIndex 0x0FF8).i = 0x0FF8 := fun _ => rfl
  have hm : ∀ (t : State) (a : Addr), (t.setIndex 0x0FF8).readByte a = t.readByte a := fun _ _ => rfl
  exact ⟨_, rfl, hi _, hm _⟩

/-- DrawSpriteExactly: a sprite pixel on the last column and the last row, one that the sprite leaves alone, and a collision. -/
theorem test_witness_sprite : (at300 [0x80] (regs [(0, 0xFF), (1, 0xFF)])).spriteSets 0 1 1 31 63 ∧
    ¬ (at300 [0x80] (regs [(0, 0xFF), (1, 0xFF)])).spriteSets 0 1 0 31 63 := by
  refine ⟨⟨0, 0, by decide, by decide, by decide, by decide, by decide⟩, ?_⟩
  rintro ⟨row, col, h, -⟩
  exact absurd h (Nat.not_lt_zero row)
theorem test_witness_collision : (match exec (.drw 0 1 1) (at300 [0x80] { State.reset with disp := lit [(0, 0)] }) with
    | .next t => Display.pixel (lit [(0, 0)]) 0 0 && !t.disp.pixel 0 0
    | .fault _ => false
    | .refused _ => false) = true := by decide

/-- DrawTwiceRestores: registers that are not VF. -/
theorem test_witness_draw_twice : (0 : Reg) ≠ vf ∧ (14 : Reg) ≠ vf := by decide

/-- SkipsOnKey and WaitForKey: key 15 down and no other; no key down. -/
theorem test_witness_keys : (latchKeys 0x8000 State.reset).keyDown 15 = true ∧
    (∀ j : Fin 16, j < 15 → (latchKeys 0x8000 State.reset).keyDown j = false) ∧ ∀ k : Fin 16, State.reset.keyDown k = false := by decide

/-- LoadTimers: the word is the one fetched. -/
theorem test_witness_load_timers : (State.reset.withFetchWord 16 0xF315).fetchWord = wordXI 0xF 3 0x15 ∧
    (State.reset.withFetchWord 16 0xF318).fetchWord = wordXI 0xF 3 0x18 := ⟨rfl, rfl⟩

/-- HostLoad: the least and the greatest good length, and the two bad ones beside them. -/
theorem test_witness_load_lengths : 1 ≤ [(0x12 : Byte)].length ∧ (List.replicate 3584 (0 : Byte)).length ≤ 3584 ∧
    3584 < (List.replicate 3585 (0 : Byte)).length ∧ ([] : List Byte).length = 0 := by
  rw [List.length_replicate, List.length_replicate]
  decide

/-- HostKeys: a move that is neither a reset nor a key write. -/
theorem test_witness_key_keeping_move : HostMove.displayClear ≠ .reset ∧ (∀ p, HostMove.displayClear ≠ .keysWrite p) ∧
    ∃ t, hostMove .displayClear State.reset = .next t := ⟨nofun, nofun, _, rfl⟩

/-- ClockEdgeIsOneOperation: no request, two requests, and the least loader address. -/
theorem test_witness_clock_edge : PortsIn.hostRequests {} = 0 ∧ 1 < PortsIn.hostRequests { dispAck := true } + Bool.toNat true ∧
    0x200 ≤ (0x200 : Addr).toNat := by decide
/-- The port model's second refusal. -/
theorem test_loader_below : clockEdge { ldWe := true, ldAddr := 0x1FF } State.reset = .refused .loaderBelowProgBase := rfl

/-- PlacedWordIsFetched: the greatest word; an address that is neither byte's. -/
theorem test_witness_placed : 0xFFFF < 65536 ∧ (0x202 : Addr) ≠ byteAddr 0x200 0 ∧ (0x202 : Addr) ≠ byteAddr 0x200 1 := by decide

end Sys2Proof.Tests
end

section
/-! ## What each operation touches

One rule per state operation: the frame `OnlyTouches m s` survives the operation when the row `m` allows the items it writes.
The frame of an instruction is then its chain of operations, read from the left. -/

namespace Sys2Proof.Machine

namespace OnlyTouches

variable {m : Touched} {s t : State}

theorem refl (m : Touched) (s : State) : OnlyTouches m s s where
  regs _ _ := rfl
  index _ := rfl
  stack _ := ⟨rfl, rfl⟩
  mem _ _ := rfl
  disp _ := rfl
  dirty _ := rfl
  dt _ := rfl
  st _ := rfl
  err _ := rfl
  rnd _ := ⟨rfl, rfl⟩
  key := rfl
  cfg := rfl

theorem setPc (h : OnlyTouches m s t) (w : Word) : OnlyTouches m s (t.setPc w) := { h with }

theorem advance (h : OnlyTouches m s t) : OnlyTouches m s t.advance := h.setPc _

theorem skipIf (h : OnlyTouches m s t) (c : Bool) : OnlyTouches m s (t.skipIf c) := h.setPc _

theorem setReg (h : OnlyTouches m s t) {r : Reg} (hr : m.regs r = true) (b : Byte) : OnlyTouches m s (t.setReg r b) :=
  { h with
    regs := fun q hq => by
      have hne : q ≠ r := fun e => by simp [e, hr] at hq
      rw [reg_setReg, if_neg hne, h.regs q hq] }

theorem setRegFlag (h : OnlyTouches m s t) {x : Reg} (hx : m.regs x = true) (hvf : m.regs vf = true) (b f : Byte) :
    OnlyTouches m s (t.setRegFlag x b f) :=
  (h.setReg hx b).setReg hvf f

theorem setRegs (h : OnlyTouches m s t) (k : Nat) (bs : List Byte) (hlen : k + bs.length ≤ 16)
    (hm : ∀ q : Reg, k ≤ q.val ∧ q.val < k + bs.length → m.regs q = true) : OnlyTouches m s (t.setRegs k bs) := by
  rw [setRegs_eq]
  refine { h with regs := fun q hq => ?_ }
  have hout : ¬ (k ≤ q.val ∧ q.val < k + bs.length) := fun hin => by simp [hm q hin] at hq
  show (t.setRegs k bs).reg q = s.reg q
  rw [reg_setRegs t k bs q hlen, dif_neg hout, h.regs q hq]

theorem setIndex (h : OnlyTouches m s t) (hm : m.index = true) (w : Word) : OnlyTouches m s (t.setIndex w) :=
  { h with index := fun hf => by simp [hm] at hf }

theorem setDisplay (h : OnlyTouches m s t) (hm : m.disp = true) (hd : m.dirty = true) (d : Display) :
    OnlyTouches m s (t.setDisplay d) :=
  { h with disp := fun hf => by simp [hm] at hf, dirty := fun hf => by simp [hd] at hf }

theorem setDT (h : OnlyTouches m s t) (hm : m.dt = true) (b : Byte) : OnlyTouches m s (t.setDT b) :=
  { h with dt := fun hf => by simp [hm] at hf }

theorem setST (h : OnlyTouches m s t) (hm : m.st = true) (b : Byte) : OnlyTouches m s (t.setST b) :=
  { h with st := fun hf => by simp [hm] at hf }

theorem storeBytes (h : OnlyTouches m s t) (hm : m.mem = true) (base : Word) (k : Nat) (bs : List Byte) :
    OnlyTouches m s (t.storeBytes base k bs) := by
  rw [storeBytes_eq]
  exact { h with mem := fun hf => by simp [hm] at hf }

theorem consumeRnd (h : OnlyTouches m s t) (hm : m.rnd = true) : OnlyTouches m s t.consumeRnd := by
  rw [consumeRnd_eq]
  exact { h with rnd := fun hf => by simp [hm] at hf }

theorem push (h : OnlyTouches m s t) (hk : m.stack = true) (he : m.err = true) (w : Word) : OnlyTouches m s (t.push w) := by
  obtain ⟨_, hp⟩ | ⟨_, hp⟩ := push_cases t w
  · rw [hp]
    exact { h with stack := fun hf => by simp [hk] at hf }
  · rw [hp]
    exact { h with err := fun hf => by simp [he] at hf }

theorem setSp (h : OnlyTouches m s t) (hm : m.stack = true) (k : Fin 17) : OnlyTouches m s { t with sp := k } :=
  { h with stack := fun hf => by simp [hm] at hf }

theorem recordUnderflow (h : OnlyTouches m s t) (hm : m.err = true) : OnlyTouches m s t.recordUnderflow := by
  rw [recordUnderflow_eq]
  exact { h with err := fun hf => by simp [hm] at hf }

end OnlyTouches

/-! ## The branches of the four instructions that have some -/

/-- R93. -/
theorem exec_ret_of_live {s : State} (h : 0 < s.sp.val) :
    exec .ret s = .next (State.setPc { s with sp := ⟨s.sp.val - 1, by have := s.sp.isLt; omega⟩ }
      (s.stack[s.sp.val - 1]'(by have := s.sp.isLt; omega))) := by
  simp only [exec, execRet, pop_of_live s h]

/-- R94. -/
theorem exec_ret_of_empty {s : State} (h : s.sp.val = 0) : exec .ret s = .next s.recordUnderflow.advance := by
  simp only [exec, execRet, pop_of_empty s h]

/-- R143, a key down. -/
theorem exec_ldVxK_of_some {s : State} {k : Nat} (x : Reg) (h : s.waitedKey = some k) :
    exec (.ldVxK x) s = .next (s.setReg x (BitVec.ofNat 8 k)).advance := by
  simp only [exec, execLdVxK, h]

/-- R143, no key down. -/
theorem exec_ldVxK_of_none {s : State} (x : Reg) (h : s.waitedKey = none) : exec (.ldVxK x) s = .next (s.setPc s.pc) := by
  simp only [exec, execLdVxK, h]

/-- R121, D6: with `ADDI_SETS_VF` = `true`. -/
theorem exec_addI_of_setsVF {s : State} (x : Reg) (h : s.cfg.addISetsVF = true) :
    exec (.addI x) s =
      .next ((s.setIndex (indexPlus s.i (s.reg x))).setReg vf (indexOverflowFlag s.i (s.reg x))).advance := by
  simp only [exec, execAddI, h, if_true]

/-- R121: the default. -/
theorem exec_addI_of_keepsVF {s : State} (x : Reg) (h : s.cfg.addISetsVF = false) :
    exec (.addI x) s = .next (s.setIndex (indexPlus s.i (s.reg x))).advance := by
  simp [exec, execAddI, h]

/-! ## R25: the row of every instruction -/

theorem touched_one_self (x : Reg) : (Touched.one x).regs x = true := beq_self_eq_true x

theorem touched_oneAndFlag_self (x : Reg) : (Touched.oneAndFlag x).regs x = true := by simp [Touched.oneAndFlag]

theorem touched_oneAndFlag_vf (x : Reg) : (Touched.oneAndFlag x).regs vf = true := by simp [Touched.oneAndFlag]

/-- A register-to-register instruction with a flag: result, flag, advance (R102). -/
theorem onlyTouches_setRegFlag_advance (s : State) (x : Reg) (b f : Byte) :
    OnlyTouches (Touched.oneAndFlag x) s (s.setRegFlag x b f).advance :=
  ((OnlyTouches.refl _ s).setRegFlag (touched_oneAndFlag_self x) (touched_oneAndFlag_vf x) b f).advance

/-- An instruction that writes one register and advances. -/
theorem onlyTouches_setReg_advance (s : State) (x : Reg) (b : Byte) : OnlyTouches (Touched.one x) s (s.setReg x b).advance :=
  ((OnlyTouches.refl _ s).setReg (touched_one_self x) b).advance

/-- R25, R83: every execute step completes and writes nothing outside its row. -/
theorem exec_onlyTouches (i : Instr) (s : State) : ∃ t, exec i s = .next t ∧ OnlyTouches (touched s.cfg i) s t := by
  have same (m : Touched) : OnlyTouches m s s := .refl m s
  cases i with
  | cls => exact ⟨_, rfl, ((same _).setDisplay rfl rfl _).advance⟩
  | ret =>
    by_cases h : 0 < s.sp.val
    · exact ⟨_, exec_ret_of_live h, ((same _).setSp rfl _).setPc _⟩
    · exact ⟨_, exec_ret_of_empty (Nat.eq_zero_of_not_pos h), ((same _).recordUnderflow rfl).advance⟩
  | jp nnn => exact ⟨_, rfl, (same _).setPc _⟩
  | call nnn => exact ⟨_, rfl, ((same _).push rfl rfl _).setPc _⟩
  | seImm x nn => exact ⟨_, rfl, (same _).skipIf _⟩
  | sneImm x nn => exact ⟨_, rfl, (same _).skipIf _⟩
  | seReg x y => exact ⟨_, rfl, (same _).skipIf _⟩
  | ldImm x nn => exact ⟨_, rfl, onlyTouches_setReg_advance s x _⟩
  | addImm x nn => exact ⟨_, rfl, onlyTouches_setReg_advance s x _⟩
  | ldReg x y => exact ⟨_, rfl, onlyTouches_setReg_advance s x _⟩
  | orReg x y => exact ⟨_, rfl, onlyTouches_setRegFlag_advance s x _ _⟩
  | andReg x y => exact ⟨_, rfl, onlyTouches_setRegFlag_advance s x _ _⟩
  | xorReg x y => exact ⟨_, rfl, onlyTouches_setRegFlag_advance s x _ _⟩
  | addReg x y => exact ⟨_, rfl, onlyTouches_setRegFlag_advance s x _ _⟩
  | subReg x y => exact ⟨_, rfl, onlyTouches_setRegFlag_advance s x _ _⟩
  | shr x y => exact ⟨_, rfl, onlyTouches_setRegFlag_advance s x _ _⟩
  | subn x y => exact ⟨_, rfl, onlyTouches_setRegFlag_advance s x _ _⟩
  | shl x y => exact ⟨_, rfl, onlyTouches_setRegFlag_advance s x _ _⟩
  | sneReg x y => exact ⟨_, rfl, (same _).skipIf _⟩
  | ldI nnn => exact ⟨_, rfl, ((same _).setIndex rfl _).advance⟩
  | jpV0 nnn => exact ⟨_, rfl, (same _).setPc _⟩
  | rnd x nn => exact ⟨_, rfl, (((same _).consumeRnd rfl).setReg (beq_self_eq_true x) _).advance⟩
  | drw x y n => exact ⟨_, rfl, (((same _).setDisplay rfl rfl _).setReg rfl _).advance⟩
  | skp x => exact ⟨_, rfl, (same _).skipIf _⟩
  | sknp x => exact ⟨_, rfl, (same _).skipIf _⟩
  | ldVxDT x => exact ⟨_, rfl, onlyTouches_setReg_advance s x _⟩
  | ldVxK x =>
    cases hk : s.waitedKey with
    | some k => exact ⟨_, exec_ldVxK_of_some x hk, onlyTouches_setReg_advance s x _⟩
    | none => exact ⟨_, exec_ldVxK_of_none x hk, (same _).setPc _⟩
  | ldDT x => exact ⟨_, rfl, ((same _).setDT rfl _).advance⟩
  | ldST x => exact ⟨_, rfl, ((same _).setST rfl _).advance⟩
  | addI x =>
    cases hc : s.cfg.addISetsVF with
    | true => exact ⟨_, exec_addI_of_setsVF x hc, (((same _).setIndex rfl _).setReg (by simp [touched, hc]) _).advance⟩
    | false => exact ⟨_, exec_addI_of_keepsVF x hc, ((same _).setIndex rfl _).advance⟩
  | ldF x => exact ⟨_, rfl, ((same _).setIndex rfl _).advance⟩
  | ldB x => exact ⟨_, rfl, ((same _).storeBytes rfl _ _ _).advance⟩
  | ldMemVx x => exact ⟨_, rfl, (((same _).storeBytes rfl _ _ _).setIndex rfl _).advance⟩
  | ldVxMem x =>
    refine ⟨_, rfl, (((same _).setRegs 0 _ ?_ fun q hq => ?_).setIndex rfl _).advance⟩
    · rw [length_loadBytes]
      omega
    · rw [length_loadBytes] at hq
      exact decide_eq_true (Fin.le_def.mpr (by omega))

/-- Settles O14: the frame of each instruction is the chain of the frames of its operations. -/
theorem everyInstructionKeepsItsRow : Obligations.EveryInstructionKeepsItsRow := exec_onlyTouches

end Sys2Proof.Machine
end

section
/-! ## What one cycle and one move can do: `ERR`, the timers, reset -/

namespace Sys2Proof.Machine

/-! ### The cycle -/

/-- All a cycle can be (R80 to R84): the no-operation of an unrecognised word, or an execute step inside its row of R25; then the
tick. -/
theorem step_cases (s : State) :
    (∃ e, decode s.fetchWord = .error e ∧ step s = .next s.advance.tick) ∨
      ∃ i t, decode s.fetchWord = .ok i ∧ exec i s = .next t ∧ OnlyTouches (touched s.cfg i) s t ∧ step s = .next t.tick := by
  cases hd : decode s.fetchWord with
  | error e => exact .inl ⟨e, rfl, step_of_error hd⟩
  | ok i =>
    obtain ⟨t, hx, hrow⟩ := exec_onlyTouches i s
    exact .inr ⟨i, t, rfl, hx, hrow, by rw [step_of_ok hd, hx, endCycle_next]⟩

/-! ### R25's columns for `ERR`, `DT` and `ST` -/

theorem touched_err (c : Config) (i : Instr) : (touched c i).err = true ↔ i = .ret ∨ ∃ nnn, i = .call nnn := by
  cases i <;> simp [touched, Touched.one, Touched.oneAndFlag]

theorem touched_dt (c : Config) (i : Instr) : (touched c i).dt = true ↔ ∃ x, i = .ldDT x := by
  cases i <;> simp [touched, Touched.one, Touched.oneAndFlag]

theorem touched_st (c : Config) (i : Instr) : (touched c i).st = true ↔ ∃ x, i = .ldST x := by
  cases i <;> simp [touched, Touched.one, Touched.oneAndFlag]

/-! ### `ERR` (R21, R92, R94) -/

@[simp] theorem ovf_setPc (s : State) (w : Word) : (s.setPc w).ovf = s.ovf := rfl
@[simp] theorem unf_setPc (s : State) (w : Word) : (s.setPc w).unf = s.unf := rfl
@[simp] theorem ovf_tick (s : State) : s.tick.ovf = s.ovf := rfl
@[simp] theorem unf_tick (s : State) : s.tick.unf = s.unf := rfl

theorem ovf_push (s : State) (w : Word) : (s.push w).ovf = true ↔ s.ovf = true ∨ s.sp.val = 16 := by
  obtain ⟨h, hp⟩ | ⟨h, hp⟩ := push_cases s w
  · rw [hp]
    exact (or_iff_left (by omega)).symm
  · simp [hp, h, State.ovf]

theorem unf_push (s : State) (w : Word) : (s.push w).unf = s.unf := by
  obtain ⟨_, hp⟩ | ⟨_, hp⟩ := push_cases s w
  · rw [hp]; rfl
  · simp [hp, State.unf]

@[simp] theorem ovf_recordUnderflow (s : State) : s.recordUnderflow.ovf = s.ovf := by
  simp [recordUnderflow_eq, State.ovf]

@[simp] theorem unf_recordUnderflow (s : State) : s.recordUnderflow.unf = true := by
  simp [recordUnderflow_eq, State.unf]

/-- R93, R94: a return leaves OVF, and sets UNF exactly on an empty stack. -/
theorem exec_ret_err {s t : State} (h : exec .ret s = .next t) :
    t.ovf = s.ovf ∧ (t.unf = true ↔ s.unf = true ∨ s.sp.val = 0) := by
  by_cases hsp : 0 < s.sp.val
  · cases (exec_ret_of_live hsp).symm.trans h
    exact ⟨rfl, (or_iff_left (by omega)).symm⟩
  · have h0 : s.sp.val = 0 := Nat.eq_zero_of_not_pos hsp
    cases (exec_ret_of_empty h0).symm.trans h
    exact ⟨ovf_recordUnderflow s, iff_of_true (unf_recordUnderflow s) (.inr h0)⟩

/-- The execute step sets OVF exactly at a CALL with a full stack, UNF exactly at a RET with an empty one. -/
theorem exec_err {i : Instr} {s t : State} (hx : exec i s = .next t) (hrow : OnlyTouches (touched s.cfg i) s t) :
    (t.ovf = true ↔ s.ovf = true ∨ (s.sp.val = 16 ∧ ∃ nnn, i = .call nnn)) ∧
      (t.unf = true ↔ s.unf = true ∨ (s.sp.val = 0 ∧ i = .ret)) := by
  by_cases he : (touched s.cfg i).err = true
  · obtain rfl | ⟨nnn, rfl⟩ := (touched_err s.cfg i).mp he
    · obtain ⟨hovf, hunf⟩ := exec_ret_err hx
      simp [hovf, hunf]
    · cases hx
      simp [ovf_push, unf_push]
  · have herr : t.err = s.err := hrow.err (by simpa using he)
    have hnot : ¬ (i = .ret ∨ ∃ nnn, i = .call nnn) := fun h => he ((touched_err s.cfg i).mpr h)
    simp only [not_or] at hnot
    simp [State.ovf, State.unf, herr, hnot.1, hnot.2]

/-- Settles O20: the tick leaves `ERR`, so the cycle does what its execute step does. -/
theorem errSetOnlyByStackMisuse : Obligations.ErrSetOnlyByStackMisuse := by
  intro s
  obtain ⟨e, hd, hs⟩ | ⟨i, t, hd, hx, hrow, hs⟩ := step_cases s
  · refine ⟨_, hs, ?_⟩
    simp [hd, State.ovf, State.unf]
  · obtain ⟨hovf, hunf⟩ := exec_err hx hrow
    refine ⟨_, hs, ?_⟩
    simpa only [hd, Except.ok.injEq, ovf_tick, unf_tick] using And.intro hovf hunf

/-! ### The timers under a cycle (R151) -/

theorem countDown_le (b : Byte) : (countDown b).toNat ≤ b.toNat := by
  rw [toNat_countDown]
  exact Nat.sub_le _ _

/-- `DT` and `ST` rise in a cycle only where it loads them. -/
theorem step_timers_le {s u : State} (h : step s = .next u) :
    ((¬ ∃ x, decode s.fetchWord = .ok (.ldDT x)) → u.dt.toNat ≤ s.dt.toNat) ∧
      ((¬ ∃ x, decode s.fetchWord = .ok (.ldST x)) → u.st.toNat ≤ s.st.toNat) := by
  obtain ⟨e, _, hs⟩ | ⟨i, t, hd, _, hrow, hs⟩ := step_cases s
  · cases hs.symm.trans h
    exact ⟨fun _ => countDown_le s.dt, fun _ => countDown_le s.st⟩
  · cases hs.symm.trans h
    refine ⟨fun hn => ?_, fun hn => ?_⟩
    · have hdt : t.dt = s.dt := hrow.dt (by
        rw [← Bool.not_eq_true, touched_dt]
        rintro ⟨x, rfl⟩
        exact hn ⟨x, hd⟩)
      exact hdt ▸ countDown_le t.dt
    · have hst : t.st = s.st := hrow.st (by
        rw [← Bool.not_eq_true, touched_st]
        rintro ⟨x, rfl⟩
        exact hn ⟨x, hd⟩)
      exact hst ▸ countDown_le t.st

/-! ### Every move -/

/-- H_LOAD leaves everything but memory (R163). -/
theorem hostMove_load (bytes : List Byte) (s : State) :
    ∃ m, hostMove (.load bytes) s = .next { s with mem := m } := by
  by_cases hb : bytes.length = 0 ∨ progMax < bytes.length
  · exact ⟨s.mem, by rw [hostMove, hLoad_of_bad s hb]⟩
  · exact ⟨_, by rw [hostMove, hLoad_of_good s hb, placeBytes_eq]⟩

/-- All a move can do to `ERR` and the timers: a reset, a cycle, or nothing. -/
theorem hostMove_cases (m : HostMove) (s : State) :
    ∃ t, hostMove m s = .next t ∧
      ((m = .reset ∧ t = hReset s) ∨ (m = .step ∧ step s = .next t) ∨
        (t.err = s.err ∧ t.dt = s.dt ∧ t.st = s.st)) := by
  cases m with
  | reset => exact ⟨_, rfl, .inl ⟨rfl, rfl⟩⟩
  | load bytes =>
    obtain ⟨_, hl⟩ := hostMove_load bytes s
    exact ⟨_, hl, .inr (.inr ⟨rfl, rfl, rfl⟩)⟩
  | step =>
    obtain ⟨e, _, hs⟩ | ⟨i, t, _, _, _, hs⟩ := step_cases s
    · exact ⟨_, hs, .inr (.inl ⟨rfl, hs⟩)⟩
    · exact ⟨_, hs, .inr (.inl ⟨rfl, hs⟩)⟩
  | keysWrite pressed => exact ⟨_, rfl, .inr (.inr ⟨rfl, rfl, rfl⟩)⟩
  | keysRead => exact ⟨_, rfl, .inr (.inr ⟨rfl, rfl, rfl⟩)⟩
  | displayRead => exact ⟨_, rfl, .inr (.inr ⟨rfl, rfl, rfl⟩)⟩
  | displayClear => exact ⟨_, rfl, .inr (.inr ⟨rfl, rfl, rfl⟩)⟩
  | rndSupply r => exact ⟨_, rfl, .inr (.inr ⟨rfl, rfl, rfl⟩)⟩

/-- R26: `ERR` never returns from 1 to 0 except by reset. -/
theorem step_err_sticky {s t : State} (h : step s = .next t) : (s.ovf = true → t.ovf = true) ∧ (s.unf = true → t.unf = true) := by
  obtain ⟨u, hs, hovf, hunf⟩ := errSetOnlyByStackMisuse s
  cases hs.symm.trans h
  exact ⟨fun h1 => hovf.mpr (.inl h1), fun h1 => hunf.mpr (.inl h1)⟩

/-- R26: what a move leaves of `ERR` and the timers. -/
theorem hostMove_err_timers (m : HostMove) (s : State) :
    ∃ t, hostMove m s = .next t ∧
      (m ≠ .reset → (s.ovf = true → t.ovf = true) ∧ (s.unf = true → t.unf = true)) ∧
      (¬ (m = .step ∧ ∃ x, decode s.fetchWord = .ok (.ldDT x)) → t.dt.toNat ≤ s.dt.toNat) ∧
      (¬ (m = .step ∧ ∃ x, decode s.fetchWord = .ok (.ldST x)) → t.st.toNat ≤ s.st.toNat) := by
  obtain ⟨t, hm, ⟨rfl, rfl⟩ | ⟨rfl, hs⟩ | ⟨herr, hdt, hst⟩⟩ := hostMove_cases m s
  · exact ⟨_, hm, fun hne => absurd rfl hne, fun _ => Nat.zero_le _, fun _ => Nat.zero_le _⟩
  · obtain ⟨hdt, hst⟩ := step_timers_le hs
    exact ⟨t, hm, fun _ => step_err_sticky hs, fun hn => hdt fun hx => hn ⟨rfl, hx⟩, fun hn => hst fun hx => hn ⟨rfl, hx⟩⟩
  · exact ⟨t, hm, fun _ => by simp only [State.ovf, State.unf, herr, imp_self, and_self],
      fun _ => Nat.le_of_eq (by rw [hdt]), fun _ => Nat.le_of_eq (by rw [hst])⟩

/-- A register of `w` bits holds at most its greatest number. -/
theorem toNat_le_max {w : Nat} (b : BitVec w) : b.toNat ≤ 2 ^ w - 1 := Nat.le_sub_one_of_lt b.isLt

/-- Settles O19: the bounds hold by the types of State, the rest is what each move leaves of `ERR` and the timers. -/
theorem stateInvariantsUnderEveryMove : Obligations.StateInvariantsUnderEveryMove := by
  intro m s
  obtain ⟨t, hm, herr, hdt, hst⟩ := hostMove_err_timers m s
  exact ⟨t, hm, Fin.is_le t.sp, fun r => toNat_le_max (t.reg r), toNat_le_max t.dt, toNat_le_max t.st, toNat_le_max t.pc,
    toNat_le_max t.i, fun k => toNat_le_max t.stack[k.val], fun a => toNat_le_max (t.readByte a), herr, hdt, hst⟩

/-! ### Reset (R24) -/

/-- Settles O17: reset memory lists no byte. -/
theorem resetMemoryIsCanonical : Obligations.ResetMemoryIsCanonical :=
  ⟨Memory.wf_nil _, fun c => Memory.wf_nil c.fontData⟩

theorem resetByte_in_font (font : Font) (k : Nat) (hk : k < 80) : Memory.resetByte font (fontBase + k) = font[k] := by
  have h : fontBase ≤ fontBase + k ∧ fontBase + k < fontLimit := by
    simp only [fontBase, fontLimit]
    omega
  simp [Memory.resetByte, h]

theorem resetByte_outside_font (font : Font) (a : Nat) (h : a < fontBase ∨ fontLimit ≤ a) : Memory.resetByte font a = 0 :=
  dif_neg (by omega)

theorem readByte_resetWith (c : Config) (a : Addr) : (State.resetWith c).readByte a = Memory.resetByte c.fontData a.toNat := rfl

/-- R18, R24: the font stands in memory after reset. -/
theorem readByte_resetWith_font (c : Config) (k : Fin 80) :
    (State.resetWith c).readByte (BitVec.ofNat 12 (0x050 + k.val)) = c.fontData[k.val] := by
  have ha : (BitVec.ofNat 12 (0x050 + k.val)).toNat = fontBase + k.val := by
    rw [BitVec.toNat_ofNat, fontBase]
    omega
  rw [readByte_resetWith, ha, resetByte_in_font c.fontData k.val k.isLt]

/-- Settles O18: registers, stack and display are filled with zeros, and memory, which lists nothing, reads as its reset bytes. -/
theorem resetState : Obligations.ResetState := by
  refine ⟨rfl, fun c => ⟨fun r => ?_, rfl, rfl, rfl, fun k => ?_, rfl, rfl, fun a ha => ?_, readByte_resetWith_font c, fun a ha => ?_,
    pixel_blank, rfl, fun k => ?_, rfl⟩⟩
  · exact Vector.getElem_replicate r.isLt
  · exact Vector.getElem_replicate k.isLt
  · exact resetByte_outside_font _ _ (.inl ha)
  · exact resetByte_outside_font _ _ (.inr ha)
  · exact BitVec.getLsbD_zero

end Sys2Proof.Machine
end

section
/-! ## What a cycle does not read: dead stack entries, `ERR`, `DIRTY`, `ST`

Both statements compare two runs. One relation serves both: the states agree on everything but `STACK`, `ERR`, `DIRTY` and `ST`; on
the live stack entries they agree too, on the dead ones unless `dead`, on the other three unless `unread`. One rule per state
operation that concerns these four; every other operation commutes with overwriting them, by `SameRead.map`. -/

namespace Sys2Proof.Machine

/-- The state with other contents of `STACK`, `ERR`, `DIRTY` and `ST`. -/
def State.overlay (s : State) (stack : Vector Word 16) (err : BitVec 2) (dirty : Bool) (st : Byte) : State :=
  { s with stack := stack, err := err, dirty := dirty, st := st }

/-- Two states that differ at most in dead stack entries, if `dead`, and in `ERR`, `DIRTY` and `ST`, if `unread`. -/
structure SameRead (dead unread : Bool) (s s' : State) : Prop where
  rest : s' = s.overlay s'.stack s'.err s'.dirty s'.st
  live : ∀ k (h : k < 16), k < s.sp.val → s'.stack[k] = s.stack[k]
  stack : dead = false → s'.stack = s.stack
  unread : unread = false → s'.err = s.err ∧ s'.dirty = s.dirty ∧ s'.st = s.st

namespace SameRead

variable {d u : Bool} {s s' : State}

/-! ### The two relations of the statements -/

theorem of_sameButDeadStack (h : SameButDeadStack s s') : SameRead true false s s' := by
  obtain ⟨hlive, hrest⟩ := h
  have herr : s'.err = s.err := (congrArg State.err hrest :)
  have hdirty : s'.dirty = s.dirty := (congrArg State.dirty hrest :)
  have hst : s'.st = s.st := (congrArg State.st hrest :)
  exact ⟨by rw [herr, hdirty, hst]; exact hrest, hlive, nofun, fun _ => ⟨herr, hdirty, hst⟩⟩

theorem sameButDeadStack (h : SameRead d false s s') : SameButDeadStack s s' := by
  obtain ⟨hrest, hlive, _, hunread⟩ := h
  obtain ⟨herr, hdirty, hst⟩ := hunread rfl
  rw [herr, hdirty, hst] at hrest
  exact ⟨hlive, hrest⟩

theorem of_sameButUnread (h : SameButUnread s s') : SameRead false true s s' := by
  have hstack : s'.stack = s.stack := (congrArg State.stack h :)
  exact ⟨by rw [hstack]; exact h, fun k hk _ => by simp only [hstack], fun _ => hstack, nofun⟩

theorem sameButUnread (h : SameRead false u s s') : SameButUnread s s' := by
  have hrest := h.rest
  rw [h.stack rfl] at hrest
  exact hrest

/-! ### Operations that leave the four items alone -/

/-- An operation that commutes with overwriting the four items neither reads nor writes them. -/
theorem map (h : SameRead d u s s') (f : State → State)
    (hf : ∀ q k e y z, f (q.overlay k e y z) = (f q).overlay k e y z) (hsp : (f s).sp = s.sp) : SameRead d u (f s) (f s') := by
  have keeps (q : State) : f q = (f q).overlay q.stack q.err q.dirty q.st := hf q q.stack q.err q.dirty q.st
  have hstack (q : State) : (f q).stack = q.stack := (congrArg State.stack (keeps q) :)
  have herr (q : State) : (f q).err = q.err := (congrArg State.err (keeps q) :)
  have hdirty (q : State) : (f q).dirty = q.dirty := (congrArg State.dirty (keeps q) :)
  have hst (q : State) : (f q).st = q.st := (congrArg State.st (keeps q) :)
  refine ⟨?_, ?_, ?_, ?_⟩
  · rw [hstack, herr, hdirty, hst, ← hf, ← h.rest]
  · simpa only [hstack, hsp] using h.live
  · simpa only [hstack] using h.stack
  · simpa only [herr, hdirty, hst] using h.unread

theorem setPc (h : SameRead d u s s') {w w' : Word} (hw : w' = w) : SameRead d u (s.setPc w) (s'.setPc w') := by
  subst hw
  exact h.map (·.setPc w') (fun _ _ _ _ _ => rfl) rfl

theorem advance (h : SameRead d u s s') : SameRead d u s.advance s'.advance :=
  h.map State.advance (fun _ _ _ _ _ => rfl) rfl

theorem skipIf (h : SameRead d u s s') (c : Bool) : SameRead d u (s.skipIf c) (s'.skipIf c) :=
  h.map (·.skipIf c) (fun _ _ _ _ _ => rfl) rfl

theorem setReg (h : SameRead d u s s') (r : Reg) (b : Byte) : SameRead d u (s.setReg r b) (s'.setReg r b) :=
  h.map (·.setReg r b) (fun _ _ _ _ _ => rfl) rfl

theorem setRegFlag (h : SameRead d u s s') (x : Reg) (b f : Byte) : SameRead d u (s.setRegFlag x b f) (s'.setRegFlag x b f) :=
  (h.setReg x b).setReg vf f

theorem setRegs (h : SameRead d u s s') (k : Nat) (bs : List Byte) : SameRead d u (s.setRegs k bs) (s'.setRegs k bs) := by
  induction bs generalizing s s' k with
  | nil => exact h
  | cons b bs ih => exact ih (h.setReg _ b) (k + 1)

theorem setIndex (h : SameRead d u s s') (w : Word) : SameRead d u (s.setIndex w) (s'.setIndex w) :=
  h.map (·.setIndex w) (fun _ _ _ _ _ => rfl) rfl

theorem setDT (h : SameRead d u s s') (b : Byte) : SameRead d u (s.setDT b) (s'.setDT b) :=
  h.map (·.setDT b) (fun _ _ _ _ _ => rfl) rfl

theorem storeByte (h : SameRead d u s s') (a : Addr) (b : Byte) : SameRead d u (s.storeByte a b) (s'.storeByte a b) := by
  refine h.map (·.storeByte a b) (fun q k e y z => ?_) (congrArg State.sp (storeByte_eq s a b) :)
  by_cases hl : q.storeLands a
  · rw [storeByte_of_lands q a b hl, storeByte_of_lands (q.overlay k e y z) a b hl]
    rfl
  · rw [storeByte_of_not_lands q a b hl, storeByte_of_not_lands (q.overlay k e y z) a b hl]

theorem storeBytes (h : SameRead d u s s') (base : Word) (k : Nat) (bs : List Byte) :
    SameRead d u (s.storeBytes base k bs) (s'.storeBytes base k bs) := by
  induction bs generalizing s s' k with
  | nil => exact h
  | cons b bs ih => exact ih (h.storeByte _ b) (k + 1)

theorem consumeRnd (h : SameRead d u s s') : SameRead d u s.consumeRnd s'.consumeRnd := by
  refine h.map State.consumeRnd (fun q k e y z => ?_) (congrArg State.sp (consumeRnd_eq s) :)
  cases hr : q.rndIn with
  | nil => rw [consumeRnd_free q hr, consumeRnd_free (q.overlay k e y z) hr]; rfl
  | cons r rs => rw [consumeRnd_supplied q r rs hr, consumeRnd_supplied (q.overlay k e y z) r rs hr]; rfl

/-! ### Operations on the four items -/

theorem setDisplay (h : SameRead d u s s') (p : Display) : SameRead d u (s.setDisplay p) (s'.setDisplay p) where
  rest := congrArg (·.setDisplay p) h.rest
  live := h.live
  stack := h.stack
  unread hu := ⟨(h.unread hu).1, rfl, (h.unread hu).2.2⟩

theorem setST (h : SameRead d u s s') (b : Byte) : SameRead d u (s.setST b) (s'.setST b) where
  rest := congrArg (·.setST b) h.rest
  live := h.live
  stack := h.stack
  unread hu := ⟨(h.unread hu).1, (h.unread hu).2.1, rfl⟩

theorem tick (h : SameRead d u s s') : SameRead d u s.tick s'.tick where
  rest := congrArg State.tick h.rest
  live := h.live
  stack := h.stack
  unread hu := ⟨(h.unread hu).1, (h.unread hu).2.1, congrArg countDown (h.unread hu).2.2⟩

theorem orErr (h : SameRead d u s s') (b : BitVec 2) :
    SameRead d u { s with err := s.err ||| b } { s' with err := s'.err ||| b } where
  rest := congrArg (fun q : State => { q with err := q.err ||| b }) h.rest
  live := h.live
  stack := h.stack
  unread hu := ⟨congrArg (· ||| b) (h.unread hu).1, (h.unread hu).2⟩

theorem recordUnderflow (h : SameRead d u s s') : SameRead d u s.recordUnderflow s'.recordUnderflow := by
  rw [recordUnderflow_eq, recordUnderflow_eq]
  exact h.orErr 0b10

theorem sp_eq (h : SameRead d u s s') : s'.sp = s.sp := (congrArg State.sp h.rest :)

/-- One entry fewer is live. -/
theorem setSp (h : SameRead d u s s') (k : Fin 17) (hk : k ≤ s.sp) : SameRead d u { s with sp := k } { s' with sp := k } where
  rest := congrArg (fun q : State => { q with sp := k }) h.rest
  live j hj hlt := h.live j hj (Nat.lt_of_lt_of_le hlt hk)
  stack := h.stack
  unread := h.unread

/-- Writing the entry above the live ones makes it live, with the same word in both states. -/
theorem pushEntry (h : SameRead d u s s') (w : Word) (hsp : s.sp.val < 16) :
    SameRead d u { s with stack := s.stack.set s.sp.val w, sp := ⟨s.sp.val + 1, by omega⟩ }
      { s' with stack := s'.stack.set s.sp.val w, sp := ⟨s.sp.val + 1, by omega⟩ } where
  rest := congrArg (fun q : State => { q with stack := q.stack.set s.sp.val w, sp := ⟨s.sp.val + 1, by omega⟩ }) h.rest
  live j hj hlt := by
    have hlt : j < s.sp.val + 1 := hlt
    simp only [Vector.getElem_set]
    split
    · rfl
    · exact h.live j hj (by omega)
  stack hd := congrArg (·.set s.sp.val w) (h.stack hd)
  unread := h.unread

theorem push (h : SameRead d u s s') (w : Word) : SameRead d u (s.push w) (s'.push w) := by
  obtain ⟨hsp, hp⟩ | ⟨hsp, hp⟩ := push_cases s w
  · rw [hp, push_of_room s' w (by rwa [h.sp_eq])]
    simp only [h.sp_eq]
    exact h.pushEntry w hsp
  · rw [hp, push_of_full s' w (by rw [h.sp_eq, hsp])]
    exact h.orErr 0b01

end SameRead

/-! ### The cycle -/

section
variable {d u : Bool} {s s' : State}

/-- R83: the execute step answers in both states, and what it leaves differs in the same items only. Every value it computes is the
same in both states, since none of the four items enters it. -/
theorem exec_sameRead (i : Instr) (h : SameRead d u s s') :
    ∃ t t', exec i s = .next t ∧ exec i s' = .next t' ∧ SameRead d u t t' := by
  obtain ⟨stack, err, dirty, st, rfl⟩ : ∃ stack err dirty st, s' = s.overlay stack err dirty st := ⟨_, _, _, _, h.rest⟩
  cases i with
  | cls => exact ⟨_, _, rfl, rfl, (h.setDisplay _).advance⟩
  | ret =>
    by_cases hpos : 0 < s.sp.val
    · exact ⟨_, _, exec_ret_of_live hpos, exec_ret_of_live (s := s.overlay stack err dirty st) hpos,
        (h.setSp _ (Nat.sub_le _ _)).setPc (h.live (s.sp.val - 1) (by omega) (by omega))⟩
    · have h0 : s.sp.val = 0 := Nat.eq_zero_of_not_pos hpos
      exact ⟨_, _, exec_ret_of_empty h0, exec_ret_of_empty (s := s.overlay stack err dirty st) h0, h.recordUnderflow.advance⟩
  | jp nnn => exact ⟨_, _, rfl, rfl, h.setPc rfl⟩
  | call nnn => exact ⟨_, _, rfl, rfl, (h.push _).setPc rfl⟩
  | seImm x nn => exact ⟨_, _, rfl, rfl, h.skipIf _⟩
  | sneImm x nn => exact ⟨_, _, rfl, rfl, h.skipIf _⟩
  | seReg x y => exact ⟨_, _, rfl, rfl, h.skipIf _⟩
  | ldImm x nn => exact ⟨_, _, rfl, rfl, (h.setReg x _).advance⟩
  | addImm x nn => exact ⟨_, _, rfl, rfl, (h.setReg x _).advance⟩
  | ldReg x y => exact ⟨_, _, rfl, rfl, (h.setReg x _).advance⟩
  | orReg x y => exact ⟨_, _, rfl, rfl, (h.setRegFlag x _ _).advance⟩
  | andReg x y => exact ⟨_, _, rfl, rfl, (h.setRegFlag x _ _).advance⟩
  | xorReg x y => exact ⟨_, _, rfl, rfl, (h.setRegFlag x _ _).advance⟩
  | addReg x y => exact ⟨_, _, rfl, rfl, (h.setRegFlag x _ _).advance⟩
  | subReg x y => exact ⟨_, _, rfl, rfl, (h.setRegFlag x _ _).advance⟩
  | shr x y => exact ⟨_, _, rfl, rfl, (h.setRegFlag x _ _).advance⟩
  | subn x y => exact ⟨_, _, rfl, rfl, (h.setRegFlag x _ _).advance⟩
  | shl x y => exact ⟨_, _, rfl, rfl, (h.setRegFlag x _ _).advance⟩
  | sneReg x y => exact ⟨_, _, rfl, rfl, h.skipIf _⟩
  | ldI nnn => exact ⟨_, _, rfl, rfl, (h.setIndex _).advance⟩
  | jpV0 nnn => exact ⟨_, _, rfl, rfl, h.setPc rfl⟩
  | rnd x nn => exact ⟨_, _, rfl, rfl, (h.consumeRnd.setReg x _).advance⟩
  | drw x y n => exact ⟨_, _, rfl, rfl, ((h.setDisplay _).setReg vf _).advance⟩
  | skp x => exact ⟨_, _, rfl, rfl, h.skipIf _⟩
  | sknp x => exact ⟨_, _, rfl, rfl, h.skipIf _⟩
  | ldVxDT x => exact ⟨_, _, rfl, rfl, (h.setReg x _).advance⟩
  | ldVxK x =>
    cases hk : s.waitedKey with
    | some n =>
      exact ⟨_, _, exec_ldVxK_of_some x hk, exec_ldVxK_of_some (s := s.overlay stack err dirty st) x hk, (h.setReg x _).advance⟩
    | none => exact ⟨_, _, exec_ldVxK_of_none x hk, exec_ldVxK_of_none (s := s.overlay stack err dirty st) x hk, h.setPc rfl⟩
  | ldDT x => exact ⟨_, _, rfl, rfl, (h.setDT _).advance⟩
  | ldST x => exact ⟨_, _, rfl, rfl, (h.setST _).advance⟩
  | addI x =>
    cases hc : s.cfg.addISetsVF with
    | true =>
      exact ⟨_, _, exec_addI_of_setsVF x hc, exec_addI_of_setsVF (s := s.overlay stack err dirty st) x hc,
        ((h.setIndex _).setReg vf _).advance⟩
    | false =>
      exact ⟨_, _, exec_addI_of_keepsVF x hc, exec_addI_of_keepsVF (s := s.overlay stack err dirty st) x hc, (h.setIndex _).advance⟩
  | ldF x => exact ⟨_, _, rfl, rfl, (h.setIndex _).advance⟩
  | ldB x => exact ⟨_, _, rfl, rfl, (h.storeBytes _ 0 _).advance⟩
  | ldMemVx x => exact ⟨_, _, rfl, rfl, ((h.storeBytes _ 0 _).setIndex _).advance⟩
  | ldVxMem x => exact ⟨_, _, rfl, rfl, ((h.setRegs 0 _).setIndex _).advance⟩

/-- R81: the same word is fetched. -/
theorem SameRead.fetchWord_eq (h : SameRead d u s s') : s'.fetchWord = s.fetchWord := by
  rw [h.rest]
  rfl

/-- One cycle from two states that differ in items a cycle does not read (R80). -/
theorem step_sameRead (h : SameRead d u s s') : ∃ t t', step s = .next t ∧ step s' = .next t' ∧ SameRead d u t t' := by
  cases hd : decode s.fetchWord with
  | error e =>
    have hd' : decode s'.fetchWord = .error e := by rw [h.fetchWord_eq, hd]
    exact ⟨_, _, step_of_error hd, step_of_error hd', h.advance.tick⟩
  | ok i =>
    have hd' : decode s'.fetchWord = .ok i := by rw [h.fetchWord_eq, hd]
    obtain ⟨t, t', hx, hx', ht⟩ := exec_sameRead i h
    exact ⟨_, _, by rw [step_of_ok hd, hx, endCycle_next], by rw [step_of_ok hd', hx', endCycle_next], ht.tick⟩

end

/-- Settles O22: the cycle keeps the relation that frees the dead stack entries alone. -/
theorem deadStackEntriesUnobservable : Obligations.DeadStackEntriesUnobservable := by
  intro s s' h
  obtain ⟨t, t', hs, hs', ht⟩ := step_sameRead (SameRead.of_sameButDeadStack h)
  exact ⟨t, t', hs, hs', ht.sameButDeadStack⟩

/-- Settles O23: the cycle keeps the relation that frees `ERR`, `DIRTY` and `ST` alone. -/
theorem unreadStateAffectsNothing : Obligations.UnreadStateAffectsNothing := by
  intro s s' h
  obtain ⟨t, t', hs, hs', ht⟩ := step_sameRead (SameRead.of_sameButUnread h)
  exact ⟨t, t', hs, hs', ht.sameButUnread⟩

end Sys2Proof.Machine
end

section
/-! ## Memory: what a cycle stores, the canonical form, and the fetch that follows a store -/

namespace Sys2Proof.Machine

/-! ### What the execute step stores -/

@[simp] theorem push_mem (s : State) (w : Word) : (s.push w).mem = s.mem := by
  obtain ⟨_, hp⟩ | ⟨_, hp⟩ := push_cases s w <;> rw [hp]

@[simp] theorem recordUnderflow_mem (s : State) : s.recordUnderflow.mem = s.mem := by rw [recordUnderflow_eq]

@[simp] theorem consumeRnd_mem (s : State) : s.consumeRnd.mem = s.mem := by rw [consumeRnd_eq]

@[simp] theorem setRegs_mem (s : State) (k : Nat) (bs : List Byte) : (s.setRegs k bs).mem = s.mem := by rw [setRegs_eq]

/-- The bytes an instruction stores from `I` upward (R25's memory column, R124, R125). -/
def State.storedBytes (s : State) : Instr → List Byte
  | .ldB x => decimalDigits (s.reg x)
  | .ldMemVx x => s.regsUpTo x
  | _ => []

/-- All an execute step does to memory is one run of stores at `I`: empty but for LD B,Vx and LD [I],Vx.
The last arm is the 28 instructions whose execute step is one chain of field updates or stores. -/
theorem exec_mem {i : Instr} {s t : State} (hx : exec i s = .next t) : t.mem = (s.storeBytes s.i 0 (s.storedBytes i)).mem := by
  cases i with
  | ret =>
    by_cases hsp : 0 < s.sp.val
    · cases (exec_ret_of_live hsp).symm.trans hx
      rfl
    · cases (exec_ret_of_empty (Nat.eq_zero_of_not_pos hsp)).symm.trans hx
      exact recordUnderflow_mem s
  | call nnn =>
    cases hx
    exact push_mem s _
  | rnd x nn =>
    cases hx
    exact consumeRnd_mem s
  | ldVxK x =>
    cases hk : s.waitedKey with
    | some k =>
      cases (exec_ldVxK_of_some x hk).symm.trans hx
      rfl
    | none =>
      cases (exec_ldVxK_of_none x hk).symm.trans hx
      rfl
  | addI x =>
    cases hc : s.cfg.addISetsVF with
    | true =>
      cases (exec_addI_of_setsVF x hc).symm.trans hx
      rfl
    | false =>
      cases (exec_addI_of_keepsVF x hc).symm.trans hx
      rfl
  | ldVxMem x =>
    cases hx
    exact setRegs_mem s 0 _
  | _ =>
    cases hx
    rfl

/-! ### The canonical form (R40, R42, R56) -/

/-- The invariant speaks of memory and the font alone. -/
theorem inv_congr {s t : State} (hmem : t.mem = s.mem) (hcfg : t.cfg = s.cfg) : t.Inv ↔ s.Inv := by
  rw [State.Inv, State.Inv, hmem, hcfg]

/-- Settles O15: memory after a cycle is memory before it with a run of stores, and every store keeps the canonical form. -/
theorem stepKeepsCanonicalMemory : Obligations.StepKeepsCanonicalMemory := by
  intro s u h hu
  obtain ⟨e, _, hs⟩ | ⟨i, t, _, hx, hrow, hs⟩ := step_cases s
  · cases hs.symm.trans hu
    exact h
  · cases hs.symm.trans hu
    have hcfg : t.cfg = (s.storeBytes s.i 0 (s.storedBytes i)).cfg := by rw [hrow.cfg, storeBytes_eq]
    exact (inv_congr (exec_mem hx) hcfg).mpr (inv_storeBytes s s.i 0 _ h)

/-- Settles O16: a reset lists no byte, a load pokes bytes, and the other moves leave memory. -/
theorem hostMovesKeepCanonicalMemory : Obligations.HostMovesKeepCanonicalMemory := by
  intro m s t h hne ht
  cases m with
  | step => exact absurd rfl hne
  | reset =>
    cases ht
    exact Memory.wf_nil s.cfg.fontData
  | load bytes =>
    by_cases hb : bytes.length = 0 ∨ progMax < bytes.length
    · rw [hostMove, hLoad_of_bad s hb] at ht
      cases ht
      exact h
    · rw [hostMove, hLoad_of_good s hb] at ht
      cases ht
      exact inv_placeBytes s progBase bytes h
  | keysWrite _ | keysRead | displayRead | displayClear | rndSupply _ =>
    cases ht
    exact h

/-! ### The fetch (R43, R44, R52) -/

/-- An address is reduced to 12 bits whether or not its number is reduced first. -/
theorem byteAddr_eq_ofNat_mod (base : Word) (k : Nat) : byteAddr base k = BitVec.ofNat 12 ((base.toNat + k) % 4096) := by
  rw [← byteAddr_toNat, BitVec.ofNat_toNat, BitVec.setWidth_eq]

/-- Settles O7: the high byte weighs 256. -/
theorem fetchIsTwoBytesBigEndian : Obligations.FetchIsTwoBytesBigEndian := by
  intro s
  rw [State.fetchWord, toNat_append_bytes, byteAddr_eq_ofNat_mod, byteAddr_eq_ofNat_mod, Nat.mul_comm]
  rfl

/-- A byte outside the two at `PC` is not the placed word's. -/
theorem readByte_placeWord_off (s : State) (w : Word) (a : Addr) (h0 : a ≠ byteAddr s.pc 0) (h1 : a ≠ byteAddr s.pc 1) :
    (s.placeWord w).readByte a = s.readByte a := by
  rw [State.placeWord, readByte_pokeByte, if_neg h1, readByte_pokeByte, if_neg h0]

/-- Settles O60: a number below 65536 is its own 16-bit word, and the placed word is fetched. -/
theorem placedWordIsFetched : Obligations.PlacedWordIsFetched := by
  intro s w hw
  have hmod : w % 2 ^ 16 = w := Nat.mod_eq_of_lt hw
  have hplace : s.withFetchWord 16 w = s.placeWord (BitVec.ofNat 16 w) := by rw [State.withFetchWord, hmod]
  rw [hplace]
  refine ⟨fetchWord_placeWord s _, ?_, fun a => readByte_placeWord_off s _ a, placeWord_eq s _⟩
  rw [decodeTableWord, if_pos (Nat.le_refl 16), hmod]

/-- R125: the byte of register `j` after LD [I],Vx, where its store lands. -/
theorem readByte_storeBytes_regsUpTo (s : State) (x : Reg) (j : Nat) (hj : j ≤ x.val) (hl : s.storeLands (byteAddr s.i j)) :
    (s.storeBytes s.i 0 (s.regsUpTo x)).readByte (byteAddr s.i j) = s.reg (Fin.ofNat 16 j) := by
  have hlt : j < (s.regsUpTo x).length := by
    rw [length_regsUpTo]
    omega
  have hlen : 0 + (s.regsUpTo x).length ≤ 4096 := by
    rw [length_regsUpTo]
    omega
  have hat := (readByte_storeBytes_at s s.i 0 (s.regsUpTo x) j hlt hlen).1
  rw [Nat.zero_add] at hat
  rw [hat hl, getElem_regsUpTo]

/-- Settles O25: the next fetch reads at `PC + 2`, which is `I`, the bytes of V0 and V1. -/
theorem storeSeenByNextFetch : Obligations.StoreSeenByNextFetch := by
  intro x s hd hx hi h0 h1
  refine ⟨((s.storeBytes s.i 0 (s.regsUpTo x)).setIndex (indexAfter s.i x)).advance.tick, step_of_ok hd, ?_, ?_⟩
  · rw [storeBytes_eq]
    rfl
  · have hpc : (s.storeBytes s.i 0 (s.regsUpTo x)).pc + 2 = s.i := by rw [storeBytes_eq, hi]
    simp only [State.fetchWord, tick_pc, advance_pc, setIndex_pc, tick_readByte, advance_readByte, setIndex_readByte, hpc]
    rw [readByte_storeBytes_regsUpTo s x 0 (Nat.zero_le _) h0, readByte_storeBytes_regsUpTo s x 1 hx h1]
    rfl

end Sys2Proof.Machine
end

section
/-! ## The encoding (30_encoding.md): decoder and encoder -/

namespace Sys2Proof

/-! ### The round trip -/

/-- R61 to R64: the decoder reads back the digits the encoder wrote, format by format. -/
theorem decode_encode (i : Instr) : decode (encode i) = .ok i := by
  cases i with
  | cls | ret => rfl
  | jp _ | call _ | ldI _ | jpV0 _ =>
    rw [encode, decode, fieldOp_wordA, fieldNNN_wordA]
    rfl
  | seImm _ _ | sneImm _ _ | ldImm _ _ | addImm _ _ | rnd _ _ =>
    rw [encode, decode, fieldOp_wordXI, fieldX_wordXI, fieldNN_wordXI]
    rfl
  | seReg _ _ | sneReg _ _ | drw _ _ _ =>
    rw [encode, decode, fieldOp_word4, fieldX_word4, fieldY_word4, fieldN_word4]
    rfl
  | ldReg _ _ | orReg _ _ | andReg _ _ | xorReg _ _ | addReg _ _ | subReg _ _ | shr _ _ | subn _ _ | shl _ _ =>
    rw [encode, decode, fieldOp_word4, decode8, fieldX_word4, fieldY_word4, fieldN_word4]
    rfl
  | skp _ | sknp _ =>
    rw [encode, decode, fieldOp_wordXI, decodeE, fieldX_wordXI, fieldNN_wordXI]
    rfl
  | ldVxDT _ | ldVxK _ | ldDT _ | ldST _ | addI _ | ldF _ | ldB _ | ldMemVx _ | ldVxMem _ =>
    rw [encode, decode, fieldOp_wordXI, decodeF, fieldX_wordXI, fieldNN_wordXI]
    rfl

/-- Settles O1: no line is shut out by R70, and the encoder's word is read back. -/
theorem decodeInvertsEncode : Obligations.DecodeInvertsEncode :=
  fun i => ⟨Laws.WellFormedLine.all i, decode_encode i⟩

theorem encode_of_decode0 {w : Word} {i : Instr} (h : decode0 w = .ok i) : encode i = w := by
  unfold decode0 at h
  split at h
  case isTrue h0 =>
    cases h
    exact h0.symm
  case isFalse =>
    split at h <;> cases h
    exact Eq.symm ‹_›

theorem encode_of_decode8 {w : Word} {i : Instr} (hop : (fieldOp w).val = 0x8) (h : decode8 w = .ok i) : encode i = w := by
  unfold decode8 at h
  split at h <;> cases h
  all_goals exact word4_of_op_nibble w 0x8 _ hop ‹_›

theorem encode_of_decodeE {w : Word} {i : Instr} (hop : (fieldOp w).val = 0xE) (h : decodeE w = .ok i) : encode i = w := by
  unfold decodeE at h
  split at h <;> cases h
  all_goals exact wordXI_of_op_byte w 0xE _ hop ‹_›

theorem encode_of_decodeF {w : Word} {i : Instr} (hop : (fieldOp w).val = 0xF) (h : decodeF w = .ok i) : encode i = w := by
  unfold decodeF at h
  split at h <;> cases h
  all_goals exact wordXI_of_op_byte w 0xF _ hop ‹_›

/-- Settles O2: every digit of the word is one the decoder tested or an operand of the instruction. The cases are the sixteen arms of
`decode`, grouped by format; arm `h_k` is family digit `k - 1`. -/
theorem encodeInvertsDecode : Obligations.EncodeInvertsDecode := by
  intro w i h
  unfold decode at h
  split at h
  case h_1 => exact encode_of_decode0 h
  case h_9 hop => exact encode_of_decode8 hop h
  case h_15 hop => exact encode_of_decodeE hop h
  case h_16 =>
    have hop : (fieldOp w).val = 0xF := by
      simp only [imp_false] at *
      omega
    exact encode_of_decodeF hop h
  case h_2 hop | h_3 hop | h_11 hop | h_12 hop =>
    cases h
    exact wordA_of_op w _ hop
  case h_4 hop | h_5 hop | h_7 hop | h_8 hop | h_13 hop =>
    cases h
    exact wordXI_of_op w _ hop
  case h_6 hop | h_10 hop =>
    split at h <;> cases h
    exact word4_of_op_nibble w _ 0 hop (congrArg Fin.val ‹_›)
  case h_14 hop =>
    cases h
    exact word4_of_op_nibble w _ _ hop rfl

/-- The two directions of the round trip together. -/
theorem decode_eq_ok {w : Word} {i : Instr} : decode w = .ok i ↔ encode i = w :=
  ⟨encodeInvertsDecode w i, fun h => h ▸ decode_encode i⟩

/-- Settles O5: each word is the encoding of its instruction. -/
theorem wordsWrittenOut : Obligations.WordsWrittenOut :=
  ⟨decode_eq_ok.2 rfl, decode_eq_ok.2 rfl, decode_eq_ok.2 rfl, decode_eq_ok.2 rfl, decode_eq_ok.2 rfl, decode_eq_ok.2 rfl,
    decode_eq_ok.2 rfl⟩

/-- Settles O9: the cycle of an unrecognised word is the advance and the tick. -/
theorem unrecognisedWordIsNoOperation : Obligations.UnrecognisedWordIsNoOperation :=
  fun _ _ h => Machine.step_of_error h

end Sys2Proof
end

section
/-! ## The opcode map: the table of R64 and the words of R67 -/

namespace Sys2Proof

/-! ### The table -/

/-- A match survives a mask that keeps fewer bits. -/
theorem OpRow.and_eq_of_matches {r : OpRow} {w m : Word} (h : r.matches w = true) (hm : r.mask &&& m = m) :
    w &&& m = r.bits &&& m := by
  rw [OpRow.matches, beq_iff_eq] at h
  rw [← h, BitVec.and_assoc, hm]

theorem OpRow.fieldOp_of_matches {r : OpRow} {w : Word} (h : r.matches w = true) (hm : r.mask &&& 0xF000 = 0xF000) :
    fieldOp w = fieldOp r.bits := by
  have hand := OpRow.and_eq_of_matches h hm
  rw [and_mask_op, and_mask_op] at hand
  simpa only [fieldOp_word4] using congrArg fieldOp hand

theorem OpRow.fieldN_of_matches {r : OpRow} {w : Word} (h : r.matches w = true) (hm : r.mask &&& 0xF00F = 0xF00F) :
    fieldN w = fieldN r.bits := by
  have hand := OpRow.and_eq_of_matches h hm
  rw [and_mask_op_n, and_mask_op_n] at hand
  simpa only [fieldN_word4] using congrArg fieldN hand

theorem OpRow.fieldNN_of_matches {r : OpRow} {w : Word} (h : r.matches w = true) (hm : r.mask &&& 0xF0FF = 0xF0FF) :
    fieldNN w = fieldNN r.bits := by
  have hand := OpRow.and_eq_of_matches h hm
  rw [and_mask_op_nn, and_mask_op_nn] at hand
  simpa only [fieldNN_wordXI] using congrArg fieldNN hand

/-! ### Each word matches one row at most -/

/-- Two rows whose match values differ in a bit both masks keep share no word. -/
theorem OpRow.not_matches_both {r q : OpRow} (h : r.bits &&& q.mask ≠ q.bits &&& r.mask) (w : Word) :
    ¬ (r.matches w = true ∧ q.matches w = true) := by
  simp only [OpRow.matches, beq_iff_eq]
  rintro ⟨hr, hq⟩
  apply h
  rw [← hr, ← hq, BitVec.and_assoc, BitVec.and_assoc, BitVec.and_comm r.mask]

theorem opcodeTable_bits_differ : opcodeTable.Pairwise (fun r q => r.bits &&& q.mask ≠ q.bits &&& r.mask) := by decide

/-! ### An instruction's word matches its row -/

theorem OpRow.matches_mask_op {r : OpRow} {w : Word} (hm : r.mask = 0xF000) (hb : word4 (fieldOp w) 0 0 0 = r.bits) :
    r.matches w = true := by
  rw [OpRow.matches, hm, and_mask_op, hb, beq_self_eq_true]

theorem OpRow.matches_mask_op_n {r : OpRow} {w : Word} (hm : r.mask = 0xF00F)
    (hb : word4 (fieldOp w) 0 0 (fieldN w) = r.bits) : r.matches w = true := by
  rw [OpRow.matches, hm, and_mask_op_n, hb, beq_self_eq_true]

theorem OpRow.matches_mask_op_nn {r : OpRow} {w : Word} (hm : r.mask = 0xF0FF)
    (hb : wordXI (fieldOp w) 0 (fieldNN w) = r.bits) : r.matches w = true := by
  rw [OpRow.matches, hm, and_mask_op_nn, hb, beq_self_eq_true]

/-- The instructions stand in R64's order, so an instruction's row is found by its constructor's number. -/
theorem opcodeTable_row_of_encode (i : Instr) : ∃ r, opcodeTable[i.ctorIdx]? = some r ∧ r.matches (encode i) = true := by
  cases i with
  | cls | ret => exact ⟨_, rfl, rfl⟩
  | jp _ | call _ | ldI _ | jpV0 _ => exact ⟨_, rfl, OpRow.matches_mask_op rfl (by rw [encode, fieldOp_wordA]; rfl)⟩
  | seImm _ _ | sneImm _ _ | ldImm _ _ | addImm _ _ | rnd _ _ =>
    exact ⟨_, rfl, OpRow.matches_mask_op rfl (by rw [encode, fieldOp_wordXI]; rfl)⟩
  | drw _ _ _ => exact ⟨_, rfl, OpRow.matches_mask_op rfl (by rw [encode, fieldOp_word4]; rfl)⟩
  | seReg _ _ | sneReg _ _ | ldReg _ _ | orReg _ _ | andReg _ _ | xorReg _ _ | addReg _ _ | subReg _ _ | shr _ _ | subn _ _
  | shl _ _ =>
    exact ⟨_, rfl, OpRow.matches_mask_op_n rfl (by rw [encode, fieldOp_word4, fieldN_word4]; rfl)⟩
  | skp _ | sknp _ | ldVxDT _ | ldVxK _ | ldDT _ | ldST _ | addI _ | ldF _ | ldB _ | ldMemVx _ | ldVxMem _ =>
    exact ⟨_, rfl, OpRow.matches_mask_op_nn rfl (by rw [encode, fieldOp_wordXI, fieldNN_wordXI]; rfl)⟩

/-! ### The decoder is the table -/

/-- R63, R64: a row's mask keeps every field the decoder tests on the way to the row's instruction. The rows are named by their
instruction and grouped by the family decoder that reaches them. -/
theorem decode_of_matches (w : Word) : ∀ r ∈ opcodeTable, r.matches w = true → decode w = .ok (r.build w) := by
  simp only [opcodeTable, List.cons_append, List.nil_append, List.forall_mem_cons]
  refine ⟨?cls, ?ret, ?jp, ?call, ?seImm, ?sneImm, ?seReg, ?ldImm, ?addImm, ?ldReg, ?orReg, ?andReg, ?xorReg, ?addReg, ?subReg,
    ?shr, ?subn, ?shl, ?sneReg, ?ldI, ?jpV0, ?rnd, ?drw, ?skp, ?sknp, ?ldVxDT, ?ldVxK, ?ldDT, ?ldST, ?addI, ?ldF, ?ldB, ?ldMemVx,
    ?ldVxMem, List.forall_mem_nil _⟩ <;> intro h
  case cls | ret =>
    have hw := OpRow.and_eq_of_matches h (m := BitVec.allOnes 16) rfl
    rw [BitVec.and_allOnes] at hw
    rw [hw]
    rfl
  case jp | call | seImm | sneImm | ldImm | addImm | ldI | jpV0 | rnd | drw =>
    rw [decode, OpRow.fieldOp_of_matches h rfl]
    rfl
  case seReg | sneReg =>
    rw [decode, OpRow.fieldOp_of_matches h rfl, OpRow.fieldN_of_matches h rfl]
    rfl
  case ldReg | orReg | andReg | xorReg | addReg | subReg | shr | subn | shl =>
    rw [decode, OpRow.fieldOp_of_matches h rfl, decode8, OpRow.fieldN_of_matches h rfl]
    rfl
  case skp | sknp =>
    rw [decode, OpRow.fieldOp_of_matches h rfl, decodeE, OpRow.fieldNN_of_matches h rfl]
    rfl
  case ldVxDT | ldVxK | ldDT | ldST | addI | ldF | ldB | ldMemVx | ldVxMem =>
    rw [decode, OpRow.fieldOp_of_matches h rfl, decodeF, OpRow.fieldNN_of_matches h rfl]
    rfl

/-- Settles O3: the word of an instruction matches its own row, so a word that matches no row decodes to none. -/
theorem decoderFollowsOpcodeMap : Obligations.DecoderFollowsOpcodeMap := by
  refine ⟨decode_of_matches, fun w hno => ?_, opcodeTable_bits_differ.imp OpRow.not_matches_both, rfl⟩
  cases hd : decode w with
  | error e => exact ⟨e, rfl⟩
  | ok i =>
    obtain ⟨r, hr, hmatch⟩ := opcodeTable_row_of_encode i
    rw [decode_eq_ok.1 hd, hno r (List.mem_of_getElem? hr)] at hmatch
    cases hmatch

/-! ### The unrecognised words (R67) -/

theorem decode0_eq_error {w : Word} {e : Unrecognised} :
    decode0 w = .error e ↔ e = .family0 ∧ w ≠ 0x00E0 ∧ w ≠ 0x00EE := by
  unfold decode0
  split
  case isTrue h0 => exact ⟨nofun, fun ⟨_, h, _⟩ => absurd h0 h⟩
  case isFalse h0 =>
    split
    case isTrue h1 => exact ⟨nofun, fun ⟨_, _, h⟩ => absurd h1 h⟩
    case isFalse h1 => exact ⟨fun h => ⟨(Except.error.inj h).symm, h0, h1⟩, fun ⟨h, _⟩ => congrArg _ h.symm⟩

/-- Families 5 and 9 have one instruction, chosen by the low nibble. -/
theorem ite_ok_eq_error {c : Prop} [Decidable c] {i : Instr} {f e : Unrecognised} :
    (if c then Except.ok i else .error f) = .error e ↔ e = f ∧ ¬ c := by
  split
  case isTrue hc => exact ⟨nofun, fun ⟨_, h⟩ => absurd hc h⟩
  case isFalse hc => exact ⟨fun h => ⟨(Except.error.inj h).symm, hc⟩, fun ⟨h, _⟩ => congrArg _ h.symm⟩

/-- R114's nibbles are those above 7 except E. -/
theorem mem_unrecognised_nibbles : ∀ n : Fin 16,
    n ∈ [(0x8 : Fin 16), 0x9, 0xA, 0xB, 0xC, 0xD, 0xF] ↔ 0x7 < n.val ∧ n.val ≠ 0xE := by decide

theorem decode8_eq_error {w : Word} {e : Unrecognised} :
    decode8 w = .error e ↔ e = .family8 ∧ fieldN w ∈ [(0x8 : Fin 16), 0x9, 0xA, 0xB, 0xC, 0xD, 0xF] := by
  rw [mem_unrecognised_nibbles]
  unfold decode8
  split
  case h_10 =>
    simp only [imp_false] at *
    exact ⟨fun h => ⟨(Except.error.inj h).symm, by omega⟩, fun ⟨h, _⟩ => congrArg _ h.symm⟩
  all_goals exact ⟨nofun, fun ⟨_, hn⟩ => by omega⟩

theorem decodeE_eq_error {w : Word} {e : Unrecognised} :
    decodeE w = .error e ↔ e = .familyE ∧ fieldNN w ≠ 0x9E ∧ fieldNN w ≠ 0xA1 := by
  unfold decodeE
  split
  case h_1 hb => exact ⟨nofun, fun ⟨_, h, _⟩ => absurd (BitVec.eq_of_toNat_eq hb) h⟩
  case h_2 hb => exact ⟨nofun, fun ⟨_, _, h⟩ => absurd (BitVec.eq_of_toNat_eq hb) h⟩
  case h_3 h9E hA1 =>
    exact ⟨fun h => ⟨(Except.error.inj h).symm, fun hb => h9E (congrArg BitVec.toNat hb), fun hb => hA1 (congrArg BitVec.toNat hb)⟩,
      fun ⟨h, _⟩ => congrArg _ h.symm⟩

/-- The nine bytes of family F as the numbers its decoder tests. -/
theorem mem_familyF_bytes (b : Byte) : b ∈ [(0x07 : Byte), 0x0A, 0x15, 0x18, 0x1E, 0x29, 0x33, 0x55, 0x65] ↔
    b.toNat = 0x07 ∨ b.toNat = 0x0A ∨ b.toNat = 0x15 ∨ b.toNat = 0x18 ∨ b.toNat = 0x1E ∨ b.toNat = 0x29 ∨ b.toNat = 0x33 ∨
      b.toNat = 0x55 ∨ b.toNat = 0x65 := by
  simp only [List.mem_cons, List.not_mem_nil, or_false, ← BitVec.toNat_inj, BitVec.reduceToNat]

theorem decodeF_eq_error {w : Word} {e : Unrecognised} :
    decodeF w = .error e ↔
      e = .familyF ∧ fieldNN w ∉ [(0x07 : Byte), 0x0A, 0x15, 0x18, 0x1E, 0x29, 0x33, 0x55, 0x65] := by
  rw [mem_familyF_bytes]
  unfold decodeF
  split
  case h_10 =>
    simp only [imp_false] at *
    exact ⟨fun h => ⟨(Except.error.inj h).symm, by omega⟩, fun ⟨h, _⟩ => congrArg _ h.symm⟩
  all_goals exact ⟨nofun, fun ⟨_, hn⟩ => by omega⟩

/-- The family digits with a second selector, as numbers. -/
theorem mem_selecting_families : ∀ k : Fin 16, k ∈ [(0x0 : Fin 16), 0x5, 0x8, 0x9, 0xE, 0xF] ↔
    k.val = 0x0 ∨ k.val = 0x5 ∨ k.val = 0x8 ∨ k.val = 0x9 ∨ k.val = 0xE ∨ k.val = 0xF := by decide

/-- R63: the six families with a second selector, and the ten where the family digit alone decides. -/
theorem decode_families (w : Word) :
    (fieldOp w = 0x0 ∧ decode w = decode0 w) ∨
    (fieldOp w = 0x5 ∧ decode w = if fieldN w = 0 then .ok (.seReg (fieldX w) (fieldY w)) else .error .family5) ∨
    (fieldOp w = 0x8 ∧ decode w = decode8 w) ∨
    (fieldOp w = 0x9 ∧ decode w = if fieldN w = 0 then .ok (.sneReg (fieldX w) (fieldY w)) else .error .family9) ∨
    (fieldOp w = 0xE ∧ decode w = decodeE w) ∨
    (fieldOp w = 0xF ∧ decode w = decodeF w) ∨
    (fieldOp w ∉ [(0x0 : Fin 16), 0x5, 0x8, 0x9, 0xE, 0xF] ∧ ∃ i, decode w = .ok i) := by
  rw [mem_selecting_families]
  unfold decode
  split
  case h_1 hop => exact .inl ⟨Fin.ext hop, rfl⟩
  case h_6 hop => exact .inr (.inl ⟨Fin.ext hop, rfl⟩)
  case h_9 hop => exact .inr (.inr (.inl ⟨Fin.ext hop, rfl⟩))
  case h_10 hop => exact .inr (.inr (.inr (.inl ⟨Fin.ext hop, rfl⟩)))
  case h_15 hop => exact .inr (.inr (.inr (.inr (.inl ⟨Fin.ext hop, rfl⟩))))
  case h_16 =>
    have hop : (fieldOp w).val = 0xF := by
      simp only [imp_false] at *
      omega
    exact .inr (.inr (.inr (.inr (.inr (.inl ⟨Fin.ext hop, rfl⟩)))))
  all_goals exact .inr (.inr (.inr (.inr (.inr (.inr ⟨by omega, _, rfl⟩)))))

/-- Settles O4, family digit by family digit: only six families hold unrecognised words, each those of its own group. -/
theorem unrecognisedWordsExactly : Obligations.UnrecognisedWordsExactly := by
  intro w
  rcases decode_families w with ⟨hop, hd⟩ | ⟨hop, hd⟩ | ⟨hop, hd⟩ | ⟨hop, hd⟩ | ⟨hop, hd⟩ | ⟨hop, hd⟩ | ⟨hop, i, hd⟩
  case inr.inr.inr.inr.inr.inr =>
    simp only [List.mem_cons, List.not_mem_nil, or_false, not_or] at hop
    obtain ⟨h0, h5, h8, h9, hE, hF⟩ := hop
    simp only [hd, h0, h5, h8, h9, hE, hF, reduceCtorEq, false_and, and_self]
  all_goals
    simp only [hd, hop, decode0_eq_error, ite_ok_eq_error, decode8_eq_error, decodeE_eq_error, decodeF_eq_error, ne_eq,
      reduceCtorEq, Fin.reduceEq, false_and, true_and, and_self]

end Sys2Proof
end

section
/-! ## The assembler of R70 -/

namespace Sys2Proof

/-- A register number is the field it was written from. -/
theorem asReg_val (x : Fin 16) : asReg x.val = x := Fin.ofNat_val_eq_self x

/-- R70: the assembler reads an instruction back from its own line. -/
theorem assemble_toAsm (i : Instr) : assemble i.toAsm = some i := by
  have hwf : i.toAsm.wellFormed = true := Laws.WellFormedLine.all i
  rw [assemble, if_pos hwf]
  cases i <;>
    simp only [Instr.toAsm, assembleOperands, assembleTwo, assembleLD, Option.map_some, asReg_val, BitVec.ofNat_toNat,
      BitVec.setWidth_eq]

/-- Of a well-formed line: its operands have a shape, and they fit it. -/
theorem AsmLine.shape_of_wellFormed {l : AsmLine} (h : l.wellFormed = true) :
    ∃ sh, shapeOf l.mnemonic l.operands = some sh ∧ l.operands.all (Operand.fits sh.numeralBits) = true := by
  unfold AsmLine.wellFormed at h
  split at h
  · exact ⟨_, ‹_›, h⟩
  · cases h

/-! ### The operands of a well-formed line

A register below 16 and a numeral that fits its field are operands of `Instr`. One lemma per group of mnemonics with the same
shapes. -/

theorem no_operands {ops : List Operand} {sh : Shape} (hs : shapeOf .CLS ops = some sh) : ops = [] := by
  dsimp only [shapeOf] at hs
  split at hs
  case isTrue hops => exact hops
  case isFalse => cases hs

theorem regReg_operands {ops : List Operand} {sh : Shape} (hs : regRegShape ops = some sh)
    (hf : ops.all (Operand.fits sh.numeralBits) = true) : ∃ x y : Reg, ops = [.v x, .v y] := by
  obtain ⟨x, y, rfl, rfl⟩ := regRegShape_cases hs
  simp only [List.all_cons, List.all_nil, Bool.and_eq_true, fits_register] at hf
  obtain ⟨hx, hy, -⟩ := hf
  exact ⟨⟨x, hx⟩, ⟨y, hy⟩, rfl⟩

theorem arith_operands {ops : List Operand} {sh : Shape} (hs : arithShape ops = some sh)
    (hf : ops.all (Operand.fits sh.numeralBits) = true) :
    (∃ (x : Reg) (nn : Byte), ops = [.v x, .num nn.toNat] ∧ sh = .regImm) ∨ (∃ x y : Reg, ops = [.v x, .v y] ∧ sh = .regReg) ∨
      (∃ x : Reg, ops = [.i, .v x] ∧ sh = .indexReg) := by
  rcases arithShape_cases hs with ⟨x, a, rfl, rfl⟩ | ⟨x, y, rfl, rfl⟩ | ⟨x, rfl, rfl⟩ <;>
    simp only [List.all_cons, List.all_nil, Bool.and_eq_true, fits_register, fits_numeral] at hf
  · obtain ⟨hx, ha, -⟩ := hf
    exact .inl ⟨⟨x, hx⟩, ⟨⟨a, ha⟩⟩, rfl, rfl⟩
  · obtain ⟨hx, hy, -⟩ := hf
    exact .inr (.inl ⟨⟨x, hx⟩, ⟨y, hy⟩, rfl, rfl⟩)
  · obtain ⟨-, hx, -⟩ := hf
    exact .inr (.inr ⟨⟨x, hx⟩, rfl, rfl⟩)

/-- SE and SNE have the shapes of ADD without the one with I. -/
theorem compare_operands {ops : List Operand} {sh : Shape} (hs : shapeOf .SE ops = some sh)
    (hf : ops.all (Operand.fits sh.numeralBits) = true) :
    (∃ (x : Reg) (nn : Byte), ops = [.v x, .num nn.toNat]) ∨ (∃ x y : Reg, ops = [.v x, .v y]) := by
  dsimp only [shapeOf] at hs
  split at hs
  case isTrue => cases hs
  case isFalse hindex =>
    rcases arith_operands hs hf with ⟨x, nn, rfl, -⟩ | ⟨x, y, rfl, -⟩ | ⟨x, rfl, -⟩
    · exact .inl ⟨x, nn, rfl⟩
    · exact .inr ⟨x, y, rfl⟩
    · exact absurd rfl hindex

theorem jp_operands {ops : List Operand} {sh : Shape} (hs : jpShape ops = some sh)
    (hf : ops.all (Operand.fits sh.numeralBits) = true) :
    ∃ nnn : Addr, (ops = [.num nnn.toNat] ∧ sh = .addr) ∨ (ops = [.v 0, .num nnn.toNat] ∧ sh = .zeroAddr) := by
  rcases jpShape_cases hs with ⟨a, rfl, rfl⟩ | ⟨a, rfl, rfl⟩ <;>
    simp only [List.all_cons, List.all_nil, Bool.and_eq_true, fits_numeral] at hf
  · exact ⟨⟨⟨a, hf.1⟩⟩, .inl ⟨rfl, rfl⟩⟩
  · exact ⟨⟨⟨a, hf.2.1⟩⟩, .inr ⟨rfl, rfl⟩⟩

theorem call_operands {ops : List Operand} {sh : Shape} (hs : shapeOf .CALL ops = some sh)
    (hf : ops.all (Operand.fits sh.numeralBits) = true) : ∃ nnn : Addr, ops = [.num nnn.toNat] := by
  dsimp only [shapeOf] at hs
  split at hs <;> cases hs
  obtain ⟨nnn, ⟨hops, -⟩ | ⟨-, hne⟩⟩ := jp_operands ‹_› hf
  · exact ⟨nnn, hops⟩
  · cases hne

theorem rnd_operands {ops : List Operand} {sh : Shape} (hs : shapeOf .RND ops = some sh)
    (hf : ops.all (Operand.fits sh.numeralBits) = true) : ∃ (x : Reg) (nn : Byte), ops = [.v x, .num nn.toNat] := by
  dsimp only [shapeOf] at hs
  split at hs <;> cases hs
  obtain ⟨x, nn, hops, -⟩ | ⟨x, y, -, hne⟩ | ⟨x, -, hne⟩ := arith_operands ‹_› hf
  · exact ⟨x, nn, hops⟩
  · cases hne
  · cases hne

theorem skip_operands {ops : List Operand} {sh : Shape} (hs : shapeOf .SKP ops = some sh)
    (hf : ops.all (Operand.fits sh.numeralBits) = true) : ∃ x : Reg, ops = [.v x] := by
  dsimp only [shapeOf] at hs
  split at hs <;> cases hs
  simp only [List.all_cons, List.all_nil, Bool.and_eq_true, fits_register] at hf
  exact ⟨⟨_, hf.1⟩, rfl⟩

theorem drw_operands {ops : List Operand} {sh : Shape} (hs : shapeOf .DRW ops = some sh)
    (hf : ops.all (Operand.fits sh.numeralBits) = true) : ∃ (x y : Reg) (n : Fin 16), ops = [.v x, .v y, .num n] := by
  dsimp only [shapeOf] at hs
  split at hs <;> cases hs
  simp only [List.all_cons, List.all_nil, Bool.and_eq_true, fits_register, fits_numeral] at hf
  obtain ⟨hx, hy, hn, -⟩ := hf
  exact ⟨⟨_, hx⟩, ⟨_, hy⟩, ⟨_, hn⟩, rfl⟩

theorem exists_toAsm_of_ldShape {ops : List Operand} {sh : Shape} (hs : ldShape ops = some sh)
    (hf : ops.all (Operand.fits sh.numeralBits) = true) : ∃ i : Instr, i.toAsm = ⟨.LD, ops⟩ := by
  rcases ldShape_cases hs with ⟨x, a, rfl, rfl⟩ | ⟨x, y, rfl, rfl⟩ | ⟨x, rfl, rfl⟩ | ⟨x, rfl, rfl⟩ | ⟨x, rfl, rfl⟩ |
    ⟨a, rfl, rfl⟩ | ⟨x, rfl, rfl⟩ | ⟨x, rfl, rfl⟩ | ⟨x, rfl, rfl⟩ | ⟨x, rfl, rfl⟩ | ⟨x, rfl, rfl⟩ <;>
    simp only [List.all_cons, List.all_nil, Bool.and_eq_true, fits_register, fits_numeral] at hf
  · exact ⟨.ldImm ⟨x, hf.1⟩ ⟨⟨a, hf.2.1⟩⟩, rfl⟩
  · exact ⟨.ldReg ⟨x, hf.1⟩ ⟨y, hf.2.1⟩, rfl⟩
  · exact ⟨.ldVxDT ⟨x, hf.1⟩, rfl⟩
  · exact ⟨.ldVxK ⟨x, hf.1⟩, rfl⟩
  · exact ⟨.ldVxMem ⟨x, hf.1⟩, rfl⟩
  · exact ⟨.ldI ⟨⟨a, hf.2.1⟩⟩, rfl⟩
  · exact ⟨.ldDT ⟨x, hf.2.1⟩, rfl⟩
  · exact ⟨.ldST ⟨x, hf.2.1⟩, rfl⟩
  · exact ⟨.ldF ⟨x, hf.2.1⟩, rfl⟩
  · exact ⟨.ldB ⟨x, hf.2.1⟩, rfl⟩
  · exact ⟨.ldMemVx ⟨x, hf.2.1⟩, rfl⟩

/-! ### Lines and instructions -/

/-- R70: a well-formed line is the line of an instruction, mnemonic by mnemonic. -/
theorem AsmLine.exists_toAsm_of_wellFormed {l : AsmLine} (h : l.wellFormed = true) : ∃ i : Instr, i.toAsm = l := by
  obtain ⟨m, ops⟩ := l
  obtain ⟨sh, hs, hf⟩ := AsmLine.shape_of_wellFormed h
  cases m with
  | CLS => obtain rfl := no_operands hs; exact ⟨.cls, rfl⟩
  | RET => obtain rfl := no_operands hs; exact ⟨.ret, rfl⟩
  | JP =>
    obtain ⟨nnn, ⟨rfl, -⟩ | ⟨rfl, -⟩⟩ := jp_operands hs hf
    · exact ⟨.jp nnn, rfl⟩
    · exact ⟨.jpV0 nnn, rfl⟩
  | CALL =>
    obtain ⟨nnn, rfl⟩ := call_operands hs hf
    exact ⟨.call nnn, rfl⟩
  | SE =>
    obtain ⟨x, nn, rfl⟩ | ⟨x, y, rfl⟩ := compare_operands hs hf
    · exact ⟨.seImm x nn, rfl⟩
    · exact ⟨.seReg x y, rfl⟩
  | SNE =>
    obtain ⟨x, nn, rfl⟩ | ⟨x, y, rfl⟩ := compare_operands hs hf
    · exact ⟨.sneImm x nn, rfl⟩
    · exact ⟨.sneReg x y, rfl⟩
  | LD => exact exists_toAsm_of_ldShape hs hf
  | ADD =>
    obtain ⟨x, nn, rfl, -⟩ | ⟨x, y, rfl, -⟩ | ⟨x, rfl, -⟩ := arith_operands hs hf
    · exact ⟨.addImm x nn, rfl⟩
    · exact ⟨.addReg x y, rfl⟩
    · exact ⟨.addI x, rfl⟩
  | OR => obtain ⟨x, y, rfl⟩ := regReg_operands hs hf; exact ⟨.orReg x y, rfl⟩
  | AND => obtain ⟨x, y, rfl⟩ := regReg_operands hs hf; exact ⟨.andReg x y, rfl⟩
  | XOR => obtain ⟨x, y, rfl⟩ := regReg_operands hs hf; exact ⟨.xorReg x y, rfl⟩
  | SUB => obtain ⟨x, y, rfl⟩ := regReg_operands hs hf; exact ⟨.subReg x y, rfl⟩
  | SHR => obtain ⟨x, y, rfl⟩ := regReg_operands hs hf; exact ⟨.shr x y, rfl⟩
  | SUBN => obtain ⟨x, y, rfl⟩ := regReg_operands hs hf; exact ⟨.subn x y, rfl⟩
  | SHL => obtain ⟨x, y, rfl⟩ := regReg_operands hs hf; exact ⟨.shl x y, rfl⟩
  | RND =>
    obtain ⟨x, nn, rfl⟩ := rnd_operands hs hf
    exact ⟨.rnd x nn, rfl⟩
  | DRW => obtain ⟨x, y, n, rfl⟩ := drw_operands hs hf; exact ⟨.drw x y n, rfl⟩
  | SKP => obtain ⟨x, rfl⟩ := skip_operands hs hf; exact ⟨.skp x, rfl⟩
  | SKNP => obtain ⟨x, rfl⟩ := skip_operands hs hf; exact ⟨.sknp x, rfl⟩

/-- R70: only a well-formed line assembles. -/
theorem wellFormed_of_assemble {l : AsmLine} {i : Instr} (h : assemble l = some i) : l.wellFormed = true := by
  rw [assemble] at h
  split at h
  case isTrue hwf => exact hwf
  case isFalse => cases h

/-- Settles O6: a line that assembles is well-formed, so it is some instruction's line, and that one is what it assembles to. -/
theorem assemblerRoundTrip : Obligations.AssemblerRoundTrip := by
  have hline (l : AsmLine) (i : Instr) : assemble l = some i ↔ i.toAsm = l := by
    constructor
    · intro h
      obtain ⟨j, rfl⟩ := AsmLine.exists_toAsm_of_wellFormed (wellFormed_of_assemble h)
      rw [assemble_toAsm] at h
      cases h
      rfl
    · rintro rfl
      exact assemble_toAsm i
  refine ⟨hline, fun l => ⟨fun h => ?_, fun ⟨_, h⟩ => wellFormed_of_assemble h⟩⟩
  obtain ⟨i, hi⟩ := AsmLine.exists_toAsm_of_wellFormed h
  exact ⟨i, (hline l i).2 hi⟩

end Sys2Proof
end

section
/-! ## One cycle: completion, `PC` and the timers; one clock edge -/

namespace Sys2Proof.Machine

/-! ### Completion (R86) -/

/-- Settles O10: an unrecognised word and an execute step both answer a next state. -/
theorem everyCycleCompletes : Obligations.EveryCycleCompletes := by
  intro s
  obtain ⟨_, _, hs⟩ | ⟨_, _, _, _, _, hs⟩ := step_cases s
  · exact ⟨_, hs⟩
  · exact ⟨_, hs⟩

/-! ### Fetch, decode, execute, tick (R80) -/

/-- Settles O8: the two bytes are those of the fetched word, and the tick is written out. -/
theorem stepRunsDecodedInstruction : Obligations.StepRunsDecodedInstruction := by
  intro s t i hd hx
  have hfetch : decode s.fetchWord = .ok i := by
    rw [decode_fetchWord, byteAddr_eq_ofNat, byteAddr_eq_ofNat]
    exact hd
  rw [step_of_ok hfetch, hx, endCycle_next]
  rfl

/-! ### `PC` (R85) -/

@[simp] theorem storeBytes_pc (s : State) (base : Word) (k : Nat) (bs : List Byte) : (s.storeBytes base k bs).pc = s.pc := by
  rw [storeBytes_eq]

@[simp] theorem setRegs_pc (s : State) (k : Nat) (bs : List Byte) : (s.setRegs k bs).pc = s.pc := by rw [setRegs_eq]

@[simp] theorem consumeRnd_pc (s : State) : s.consumeRnd.pc = s.pc := by rw [consumeRnd_eq]

@[simp] theorem recordUnderflow_pc (s : State) : s.recordUnderflow.pc = s.pc := by rw [recordUnderflow_eq]

/-- R54, R99: the target of JP V0 as a number. -/
theorem offsetTarget_eq_ofNat (nnn : Addr) (b : Byte) : offsetTarget nnn b = BitVec.ofNat 16 (nnn.toNat + b.toNat) := by
  rw [BitVec.ofNat_add, BitVec.ofNat_toNat, BitVec.ofNat_toNat, offsetTarget]

/-- R146: the key a register names is the one of its low four bits. -/
theorem keyDown_keyNumber (s : State) (b : Byte) : s.keyDown (keyNumber b) = s.key.getLsbD (b.toNat % 16) := by
  rw [State.keyDown, keyNumber_val]

/-- R93, R94: a return goes to the popped address, or on when there is none. -/
theorem exec_ret_pc {s t : State} (hx : exec .ret s = .next t) : t.pc = pcAfter s .ret := by
  by_cases hsp : 0 < s.sp.val
  · cases (exec_ret_of_live hsp).symm.trans hx
    rw [pcAfter, dif_pos hsp, setPc_pc]
  · cases (exec_ret_of_empty (Nat.eq_zero_of_not_pos hsp)).symm.trans hx
    rw [pcAfter, dif_neg hsp, advance_pc, recordUnderflow_pc]

/-- R143: the key wait goes on exactly when a key is down. -/
theorem exec_ldVxK_pc {x : Reg} {s t : State} (hx : exec (.ldVxK x) s = .next t) : t.pc = pcAfter s (.ldVxK x) := by
  rw [pcAfter]
  cases hk : s.waitedKey with
  | some k =>
    cases (exec_ldVxK_of_some x hk).symm.trans hx
    have hkey : s.key ≠ 0 := fun h0 => by simp [(waitedKey_none s).mpr h0] at hk
    rw [if_neg hkey]
    rfl
  | none =>
    cases (exec_ldVxK_of_none x hk).symm.trans hx
    exact (if_pos ((waitedKey_none s).mp hk)).symm

/-- The execute step leaves `PC` as R85's table gives it. The last arm is the jumps to an address and the instructions that advance
after updates of single fields. -/
theorem exec_pc {i : Instr} {s t : State} (hx : exec i s = .next t) : t.pc = pcAfter s i := by
  cases i with
  | ret => exact exec_ret_pc hx
  | ldVxK x => exact exec_ldVxK_pc hx
  | jpV0 nnn =>
    cases hx
    exact offsetTarget_eq_ofNat nnn _
  | seImm _ _ | sneImm _ _ | seReg _ _ | sneReg _ _ =>
    cases hx
    simp [pcAfter]
  | skp x =>
    cases hx
    simp [pcAfter, keyDown_keyNumber]
  | sknp x =>
    cases hx
    simp only [pcAfter, skipIf_pc, keyDown_keyNumber, Bool.not_eq_true', ← Bool.not_eq_true, ite_not]
  | rnd _ _ | ldB _ | ldMemVx _ | ldVxMem _ =>
    cases hx
    simp [pcAfter]
  | addI x =>
    cases hc : s.cfg.addISetsVF with
    | true =>
      cases (exec_addI_of_setsVF x hc).symm.trans hx
      rfl
    | false =>
      cases (exec_addI_of_keepsVF x hc).symm.trans hx
      rfl
  | _ =>
    cases hx
    rfl

/-- Settles O11: the tick leaves `PC` where the execute step put it. -/
theorem programCounterLaw : Obligations.ProgramCounterLaw := by
  intro s
  obtain ⟨e, hd, hs⟩ | ⟨i, t, hd, hx, _, hs⟩ := step_cases s
  · refine ⟨_, hs, ?_⟩
    rw [hd]
    rfl
  · refine ⟨_, hs, ?_⟩
    rw [hd, tick_pc]
    exact exec_pc hx

/-! ### The timers (R84, R151) -/

/-- R25's column for `DT`: only LD DT,Vx writes it. -/
theorem OnlyTouches.dt_kept {i : Instr} {c : Config} {s t : State} (h : OnlyTouches (touched c i) s t) (hi : ∀ x, i ≠ .ldDT x) :
    t.dt = s.dt :=
  h.dt (by
    rw [← Bool.not_eq_true, touched_dt]
    exact fun ⟨x, hix⟩ => hi x hix)

/-- R25's column for `ST`: only LD ST,Vx writes it. -/
theorem OnlyTouches.st_kept {i : Instr} {c : Config} {s t : State} (h : OnlyTouches (touched c i) s t) (hi : ∀ x, i ≠ .ldST x) :
    t.st = s.st :=
  h.st (by
    rw [← Bool.not_eq_true, touched_st]
    exact fun ⟨x, hix⟩ => hi x hix)

/-- Settles O12: the tick takes one from what the execute step leaves, the loaded value or the one before. -/
theorem timersTickEveryCycle : Obligations.TimersTickEveryCycle := by
  intro s
  obtain ⟨e, hd, hs⟩ | ⟨i, t, hd, hx, hrow, hs⟩ := step_cases s
  · refine ⟨_, hs, ?_, ?_⟩
    · rw [hd]
      exact toNat_countDown s.dt
    · rw [hd]
      exact toNat_countDown s.st
  · refine ⟨_, hs, ?_, ?_⟩
    · rw [tick_dt, toNat_countDown]
      split
      next x hld =>
        cases hd.symm.trans hld
        cases hx
        rfl
      next hother => rw [hrow.dt_kept fun x hi => hother x (hi ▸ hd)]
    · rw [tick_st, toNat_countDown]
      split
      next x hld =>
        cases hd.symm.trans hld
        cases hx
        rfl
      next hother => rw [hrow.st_kept fun x hi => hother x (hi ▸ hd)]

/-! ### The clock edge (R88, R166) -/

theorem PortsIn.hostRequests_eq_zero (p : PortsIn) :
    p.hostRequests = 0 ↔ p.keysWe = false ∧ p.ldWe = false ∧ p.dispAck = false ∧ p.dispClr = false := by
  simp [PortsIn.hostRequests, and_assoc]

/-- R88: an edge with no request. -/
theorem clockEdge_idle {p : PortsIn} (s : State) (hrst : p.rst = false) (hstep : p.step = false) (hreq : p.hostRequests = 0) :
    clockEdge p s = .next s := by
  obtain ⟨hkeys, hld, hack, hclr⟩ := p.hostRequests_eq_zero.mp hreq
  simp [clockEdge, hrst, hstep, hreq, hkeys, hld, hack, hclr]

/-- Log 8: two requests at one edge. -/
theorem clockEdge_overlap {p : PortsIn} (s : State) (hrst : p.rst = false) (htwo : 1 < p.hostRequests + p.step.toNat) :
    clockEdge p s = .refused .overlappingRequests := by
  rw [clockEdge, hrst, if_neg Bool.false_ne_true, if_pos htwo]

/-- R163, R166: a loader byte that an H_LOAD can have. -/
theorem clockEdge_load (s : State) {a : Addr} (b : Byte) (ha : progBase ≤ a.toNat) :
    clockEdge { ldWe := true, ldAddr := a, ldData := b } s = .next (s.pokeByte a b) :=
  if_neg (Nat.not_lt.mpr ha)

/-- Settles O58: the edges with one request written out evaluate to their operation, and the loader's is one poke. -/
theorem clockEdgeIsOneOperation : Obligations.ClockEdgeIsOneOperation := by
  intro s
  refine ⟨fun p => clockEdge_idle s, fun _ => rfl, fun _ => rfl, fun _ => rfl, rfl, rfl, fun a b ha => ?_,
    fun p => clockEdge_overlap s⟩
  refine ⟨s.pokeByte a b, clockEdge_load s b ha, ?_, fun q hq => ?_, rfl⟩
  · rw [readByte_pokeByte, if_pos rfl]
  · rw [readByte_pokeByte, if_neg hq]

end Sys2Proof.Machine
end

section
/-! ## Control transfer: jumps, calls and returns, skips -/

namespace Sys2Proof.Machine

/-! ### Jumps (R90, R99) -/

/-- R54: an address as a value of `PC`. -/
@[simp] theorem toNat_target (nnn : Addr) : (target nnn).toNat = nnn.toNat := BitVec.toNat_setWidth_of_le (by decide)

/-- Settles O26: JP writes `PC` alone. -/
theorem jumpSetsProgramCounter : Obligations.JumpSetsProgramCounter := by
  intro nnn s
  exact ⟨decode_encode (.jp nnn), _, rfl, toNat_target nnn, (OnlyTouches.refl _ s).setPc _⟩

/-- R99: a 12-bit number and a byte do not overflow 16 bits. -/
theorem toNat_offsetTarget (nnn : Addr) (b : Byte) : (offsetTarget nnn b).toNat = nnn.toNat + b.toNat := by
  rw [offsetTarget_eq_ofNat, BitVec.toNat_ofNat]
  omega

/-- Settles O32: JP V0 writes `PC` alone. -/
theorem jumpWithOffsetV0 : Obligations.JumpWithOffsetV0 := by
  intro nnn s
  exact ⟨decode_encode (.jpV0 nnn), _, rfl, toNat_offsetTarget nnn _, (OnlyTouches.refl _ s).setPc _⟩

/-! ### Calls and returns (R91 to R94) -/

@[simp] theorem recordUnderflow_stack (s : State) : s.recordUnderflow.stack = s.stack := by rw [recordUnderflow_eq]

@[simp] theorem recordUnderflow_sp (s : State) : s.recordUnderflow.sp = s.sp := by rw [recordUnderflow_eq]

/-- R14, R91: with room, the word is the entry at the old `SP`. -/
theorem push_room {s : State} (w : Word) (h : s.sp.val < 16) :
    (s.push w).sp.val = s.sp.val + 1 ∧ (s.push w).err = s.err ∧
      ∀ k : Fin 16, (s.push w).stack[k.val] = if k.val = s.sp.val then w else s.stack[k.val] := by
  rw [push_of_room s w h]
  refine ⟨rfl, rfl, fun k => ?_⟩
  simp only [Vector.getElem_set, eq_comm]

/-- R92: on a full stack only `ERR` changes, and there only OVF. -/
theorem push_full {s : State} (w : Word) (h : s.sp.val = 16) :
    (s.push w).sp = s.sp ∧ (s.push w).stack = s.stack ∧ (s.push w).ovf = true ∧ (s.push w).unf = s.unf := by
  refine ⟨?_, ?_, (ovf_push s w).mpr (.inr h), unf_push s w⟩ <;> rw [push_of_full s w h]

/-- Settles O27: CALL is the push, with room or without, and then the jump, which leaves what the push did. -/
theorem callPushesReturnAddress : Obligations.CallPushesReturnAddress := by
  intro nnn s
  exact ⟨decode_encode (.call nnn), _, rfl, toNat_target nnn, fun hroom => push_room _ hroom, fun hfull => push_full _ hfull,
    ((OnlyTouches.refl _ s).push rfl rfl _).setPc _⟩

/-- Settles O28: the two branches of RET, an empty stack and a live one. -/
theorem returnPopsProgramCounter : Obligations.ReturnPopsProgramCounter := by
  refine ⟨decode_encode .ret, fun s => ?_⟩
  obtain hempty | hlive := Nat.eq_zero_or_pos s.sp.val
  · refine ⟨_, exec_ret_of_empty hempty, recordUnderflow_stack s, fun k hk => by omega, fun _ => ?_,
      ((OnlyTouches.refl _ s).recordUnderflow rfl).advance⟩
    exact ⟨recordUnderflow_sp s, congrArg (· + 2) (recordUnderflow_pc s), unf_recordUnderflow s, ovf_recordUnderflow s⟩
  · refine ⟨_, exec_ret_of_live hlive, rfl, fun k hk => ?_, fun hempty => by omega, ((OnlyTouches.refl _ s).setSp rfl _).setPc _⟩
    simp [hk]

/-- Settles O29: CALL put the address at the old `SP` (O27), and RET takes the entry below the `SP` that CALL left (O28). -/
theorem returnMatchesCall : Obligations.ReturnMatchesCall := by
  intro nnn s hroom
  obtain ⟨-, t, hcall, -, hpushed, -, -⟩ := callPushesReturnAddress nnn s
  obtain ⟨hsp, -, hstack⟩ := hpushed hroom
  refine ⟨t, hcall, fun u hustack husp => ?_⟩
  obtain ⟨r, hret, -, hpopped, -, -⟩ := returnPopsProgramCounter.2 u
  obtain ⟨hrsp, hrpc, -⟩ := hpopped ⟨s.sp.val, hroom⟩ (by rw [husp, hsp])
  refine ⟨r, hret, ?_, Fin.ext hrsp⟩
  calc r.pc = u.stack[s.sp.val] := hrpc
    _ = t.stack[s.sp.val] := by rw [hustack]
    _ = s.pc + 2 := (hstack ⟨s.sp.val, hroom⟩).trans (if_pos rfl)

/-! ### Skips (R95 to R98) -/

/-- A skip on equality, whatever the two bytes are. -/
theorem skipIf_beq (s : State) (a b : Byte) : (a = b → (s.skipIf (a == b)).pc = s.pc + 4) ∧
    (a ≠ b → (s.skipIf (a == b)).pc = s.pc + 2) ∧ OnlyTouches {} s (s.skipIf (a == b)) :=
  ⟨fun h => by simp [h], fun h => by simp [h], (OnlyTouches.refl _ s).skipIf _⟩

/-- A skip on difference, whatever the two bytes are. -/
theorem skipIf_bne (s : State) (a b : Byte) : (a ≠ b → (s.skipIf (a != b)).pc = s.pc + 4) ∧
    (a = b → (s.skipIf (a != b)).pc = s.pc + 2) ∧ OnlyTouches {} s (s.skipIf (a != b)) :=
  ⟨fun h => by simp [h], fun h => by simp [h], (OnlyTouches.refl _ s).skipIf _⟩

/-- Settles O30: the two comparisons of `V[x]` with the immediate. -/
theorem skipsOnImmediate : Obligations.SkipsOnImmediate := by
  intro x nn s
  exact ⟨decode_encode (.seImm x nn), decode_encode (.sneImm x nn), ⟨_, rfl, skipIf_beq s _ _⟩, ⟨_, rfl, skipIf_bne s _ _⟩⟩

/-- Settles O31: the two comparisons of `V[x]` with `V[y]`. -/
theorem skipsOnRegisters : Obligations.SkipsOnRegisters := by
  intro x y s
  exact ⟨decode_encode (.seReg x y), decode_encode (.sneReg x y), ⟨_, rfl, skipIf_beq s _ _⟩, ⟨_, rfl, skipIf_bne s _ _⟩⟩

end Sys2Proof.Machine
end

section
/-! ## 42_alu.md: register loads, arithmetic with flags, shifts, the masked random byte -/

namespace Sys2Proof.Machine

/-! ### One register, no flag (R100, R101, R103) -/

theorem reg_setReg_advance (s : State) (x : Reg) (b : Byte) : (s.setReg x b).advance.reg x = b := by
  rw [advance_reg, reg_setReg, if_pos rfl]

/-- Settles O33: each load is one register write and the advance. -/
theorem loadRegister : Obligations.LoadRegister := by
  intro x y nn s
  exact ⟨decode_encode (.ldImm x nn), decode_encode (.ldReg x y),
    ⟨_, rfl, reg_setReg_advance s x _, rfl, onlyTouches_setReg_advance s x _⟩,
    ⟨_, rfl, reg_setReg_advance s x _, rfl, onlyTouches_setReg_advance s x _⟩⟩

/-- Settles O34: the sum of two bytes wraps modulo 256, and the frame has no VF column. -/
theorem addImmediateSetsNoFlag : Obligations.AddImmediateSetsNoFlag := by
  intro x nn s
  refine ⟨decode_encode (.addImm x nn), _, rfl, ?_, rfl, onlyTouches_setReg_advance s x _⟩
  rw [reg_setReg_advance, BitVec.toNat_add]

/-! ### Result and flag (R102) -/

/-- R102: a destination other than VF keeps the result. -/
theorem reg_setRegFlag_advance (s : State) {x : Reg} (hx : x ≠ vf) (b f : Byte) : (s.setRegFlag x b f).advance.reg x = b := by
  rw [advance_reg, reg_setRegFlag, if_neg hx, if_pos rfl]

/-- R102: the flag is written last, so VF holds it even when VF is the destination. -/
theorem vf_setRegFlag_advance (s : State) (x : Reg) (b f : Byte) : (s.setRegFlag x b f).advance.reg vf = f := by
  rw [advance_reg, reg_setRegFlag, if_pos rfl]

/-! ### The flags as numbers (R112) -/

theorem carryFlag_eq_ite (a b : Byte) : carryFlag a b = if a.toNat + b.toNat > 255 then 1 else 0 := by
  simp only [carryFlag, flagByte, decide_eq_true_eq]

theorem notBorrowFlag_eq_ite (a b : Byte) : notBorrowFlag a b = if a.toNat < b.toNat then 0 else 1 := by
  simp only [notBorrowFlag, flagByte, decide_eq_true_eq, ← Nat.not_lt, ite_not]

theorem toNat_flagByte (c : Bool) : (flagByte c).toNat = c.toNat := by cases c <;> rfl

theorem toNat_shrFlag (src : Byte) : (shrFlag src).toNat = src.toNat % 2 := by
  rw [shrFlag, toNat_flagByte, BitVec.getLsbD, Nat.toNat_testBit, Nat.pow_zero, Nat.div_one]

theorem toNat_shlFlag (src : Byte) : (shlFlag src).toNat = src.toNat / 128 := by
  rw [shlFlag, toNat_flagByte, BitVec.getLsbD, Nat.toNat_testBit]
  have := src.isLt
  omega

/-! ### Logic, sum and differences (R104 to R108, R110) -/

/-- Settles O35: the three bit-by-bit operations with one flag. -/
theorem logicClearsVF : Obligations.LogicClearsVF := by
  intro x y s
  refine ⟨decode_encode (.orReg x y), decode_encode (.andReg x y), decode_encode (.xorReg x y),
    ⟨_, rfl, fun hx k _ => ?_, vf_setRegFlag_advance s x _ _, rfl, onlyTouches_setRegFlag_advance s x _ _⟩,
    ⟨_, rfl, fun hx k _ => ?_, vf_setRegFlag_advance s x _ _, rfl, onlyTouches_setRegFlag_advance s x _ _⟩,
    ⟨_, rfl, fun hx k _ => ?_, vf_setRegFlag_advance s x _ _, rfl, onlyTouches_setRegFlag_advance s x _ _⟩⟩
  · rw [reg_setRegFlag_advance s hx, BitVec.getLsbD_or]
  · rw [reg_setRegFlag_advance s hx, BitVec.getLsbD_and]
  · rw [reg_setRegFlag_advance s hx, BitVec.getLsbD_xor]

/-- Settles O36: the sum wraps, and the carry says when it did. -/
theorem addSetsCarry : Obligations.AddSetsCarry := by
  intro x y s
  refine ⟨decode_encode (.addReg x y), _, rfl, fun hx => ?_, ?_, rfl, onlyTouches_setRegFlag_advance s x _ _⟩
  · rw [reg_setRegFlag_advance s hx, BitVec.toNat_add]
  · rw [vf_setRegFlag_advance, carryFlag_eq_ite]

/-- R112: the difference of two bytes as a number. -/
theorem toNat_byte_sub (a b : Byte) : (a - b).toNat = (a.toNat + 256 - b.toNat) % 256 := by
  have := b.isLt
  rw [BitVec.toNat_sub]
  omega

/-- A subtraction with its not-borrow, whichever register holds the minuend. -/
theorem setRegFlag_sub_advance (s : State) (x : Reg) (a b : Byte) {t : State}
    (ht : t = (s.setRegFlag x (a - b) (notBorrowFlag a b)).advance) :
    (x ≠ vf → (t.reg x).toNat = (a.toNat + 256 - b.toNat) % 256) ∧ t.reg vf = (if a.toNat < b.toNat then 0 else 1) ∧
      t.pc = s.pc + 2 ∧ OnlyTouches (Touched.oneAndFlag x) s t := by
  subst ht
  refine ⟨fun hx => ?_, ?_, rfl, onlyTouches_setRegFlag_advance s x _ _⟩
  · rw [reg_setRegFlag_advance s hx, toNat_byte_sub]
  · rw [vf_setRegFlag_advance, notBorrowFlag_eq_ite]

/-- Settles O37: SUB and SUBN are one subtraction with the operands exchanged. -/
theorem subtractSetsNotBorrow : Obligations.SubtractSetsNotBorrow := by
  intro x y s
  exact ⟨decode_encode (.subReg x y), decode_encode (.subn x y), ⟨_, rfl, setRegFlag_sub_advance s x _ _ rfl⟩,
    ⟨_, rfl, setRegFlag_sub_advance s x _ _ rfl⟩⟩

/-! ### Shifts (R109, R111) -/

theorem shiftOperand_of_vy {s : State} (x y : Reg) (h : s.cfg.shiftSource = .vy) : s.shiftOperand x y = s.reg y := by
  simp only [State.shiftOperand, h]

theorem shiftOperand_of_vx {s : State} (x y : Reg) (h : s.cfg.shiftSource = .vx) : s.shiftOperand x y = s.reg x := by
  simp only [State.shiftOperand, h]

/-- Settles O38: the source is the operand that `SHIFT_SOURCE` selects, halved or doubled, and the flag is the bit lost. -/
theorem shiftByOne : Obligations.ShiftByOne := by
  intro x y s
  refine ⟨decode_encode (.shr x y), decode_encode (.shl x y), (s.shiftOperand x y).toNat,
    fun h => by rw [shiftOperand_of_vy x y h], fun h => by rw [shiftOperand_of_vx x y h],
    ⟨_, rfl, fun hx => ?_, ?_, rfl, onlyTouches_setRegFlag_advance s x _ _⟩,
    ⟨_, rfl, fun hx => ?_, ?_, rfl, onlyTouches_setRegFlag_advance s x _ _⟩⟩
  · rw [reg_setRegFlag_advance s hx, BitVec.toNat_ushiftRight, Nat.shiftRight_eq_div_pow, Nat.pow_one]
  · rw [vf_setRegFlag_advance, toNat_shrFlag]
  · rw [reg_setRegFlag_advance s hx, BitVec.toNat_shiftLeft, Nat.shiftLeft_eq, Nat.pow_one]
  · rw [vf_setRegFlag_advance, toNat_shlFlag]

/-! ### The random byte (R22, R113, log 2) -/

theorem nextRnd_free (s : State) (h : s.rndIn = []) : s.nextRnd = Config.freeRnd s.draws := by simp only [State.nextRnd, h]

/-- R113: whatever byte arrives, no bit outside the mask is set. -/
theorem and_mask_and_not_mask (b mask : Byte) : (b &&& mask) &&& ~~~mask = 0 := by
  rw [BitVec.and_assoc, BitVec.and_not_self]
  exact BitVec.and_zero

theorem toNat_and_mask_le (b mask : Byte) : (b &&& mask).toNat ≤ mask.toNat := by
  rw [BitVec.toNat_and]
  exact Nat.and_le_right

/-- Settles O39: the mask law of the drawn byte, then the two ways of drawing it. -/
theorem randomIsMaskedInput : Obligations.RandomIsMaskedInput := by
  intro x nn s
  have hreg : (s.consumeRnd.setReg x (s.nextRnd &&& nn)).advance.reg x = s.nextRnd &&& nn := reg_setReg_advance _ x _
  refine ⟨decode_encode (.rnd x nn), ⟨_, rfl, ?_, ?_, congrArg (· + 2) (consumeRnd_pc s), fun hfree => ?_, ?_⟩,
    fun r rs hsettled => ⟨_, rfl, ?_⟩⟩
  · rw [hreg, and_mask_and_not_mask]
  · rw [hreg]
    exact toNat_and_mask_le _ nn
  · rw [hreg, nextRnd_free s hfree, consumeRnd_free s hfree]
    exact ⟨rfl, hfree, rfl⟩
  · exact (((OnlyTouches.refl _ s).consumeRnd rfl).setReg (beq_self_eq_true x) _).advance
  · rw [hreg, nextRnd_supplied s r rs hsettled, consumeRnd_supplied s r rs hsettled]
    exact ⟨rfl, rfl, rfl⟩

end Sys2Proof.Machine
end

section
/-! ## 43_index_memory.md: the index register, decimal digits, register transfers -/

namespace Sys2Proof.Machine

/-- What an execute step does not write, from R25's row of the instruction. -/
theorem onlyTouches_of_exec {i : Instr} {s t : State} (hx : exec i s = .next t) : OnlyTouches (touched s.cfg i) s t := by
  obtain ⟨u, hu, hrow⟩ := exec_onlyTouches i s
  cases hu.symm.trans hx
  exact hrow

/-! ### The values of `I` as numbers (R54, R121, R122, R125, R126) -/

theorem toNat_indexPlus (i : Word) (b : Byte) : (indexPlus i b).toNat = (i.toNat + b.toNat) % 65536 := by
  rw [indexPlus, BitVec.toNat_add, BitVec.toNat_setWidth_of_le (by decide)]

theorem toNat_indexAfter (i : Word) (x : Reg) : (indexAfter i x).toNat = (i.toNat + x.val + 1) % 65536 := by
  rw [indexAfter, BitVec.toNat_add, BitVec.toNat_ofNat, Nat.add_mod_mod, Nat.add_assoc]

/-- R122: the greatest address is 0x050 + 5 * 255, so the product and the sum do not overflow 16 bits. -/
theorem toNat_glyphAddr (b : Byte) : (glyphAddr b).toNat = 0x050 + 5 * b.toNat := by
  have := b.isLt
  have hfive : (5 : Word).toNat = 5 := rfl
  rw [glyphAddr, BitVec.toNat_add, BitVec.toNat_mul, BitVec.toNat_setWidth_of_le (by decide), BitVec.toNat_ofNat, hfive, fontBase]
  omega

theorem indexOverflowFlag_eq_ite (i : Word) (b : Byte) :
    indexOverflowFlag i b = if i.toNat + b.toNat > 0x0FFF then 1 else 0 := by
  simp only [indexOverflowFlag, flagByte, decide_eq_true_eq]

/-! ### The index register (R120 to R122) -/

/-- Settles O40: LD I,nnn writes `I` alone. -/
theorem loadIndex : Obligations.LoadIndex := by
  intro nnn s
  exact ⟨decode_encode (.ldI nnn), _, rfl, toNat_target nnn, rfl, onlyTouches_of_exec (i := .ldI nnn) rfl⟩

/-- Settles O43: LD F,Vx writes `I` alone. -/
theorem loadGlyphAddress : Obligations.LoadGlyphAddress := by
  intro x s
  exact ⟨decode_encode (.ldF x), _, rfl, toNat_glyphAddr _, rfl, onlyTouches_of_exec (i := .ldF x) rfl⟩

/-- Settles O42: the flag is written last, from the old `I` and the old `V[x]`. -/
theorem addToIndexSettingVF : Obligations.AddToIndexSettingVF := by
  intro x s hset
  refine ⟨_, exec_addI_of_setsVF x hset, toNat_indexPlus s.i _, rfl, ?_,
    (((OnlyTouches.refl _ s).setIndex rfl _).setReg (beq_self_eq_true vf) _).advance⟩
  rw [reg_setReg_advance, indexOverflowFlag_eq_ite]

/-- Settles O41: both configurations add; the default one writes `I` alone. -/
theorem addToIndex : Obligations.AddToIndex := by
  intro x s
  refine ⟨decode_encode (.addI x), ?_⟩
  cases hc : s.cfg.addISetsVF with
  | true =>
    obtain ⟨t, hx, hi, hpc, -, -⟩ := addToIndexSettingVF x s hc
    exact ⟨t, hx, hi, hpc, nofun⟩
  | false =>
    exact ⟨_, exec_addI_of_keepsVF x hc, toNat_indexPlus s.i _, rfl, fun _ => ((OnlyTouches.refl _ s).setIndex rfl _).advance⟩

/-! ### A run of stores from its base (R42, R123) -/

/-- R42: where its store lands, byte `j` of the run stands at its address. -/
theorem readByte_storeBytes_lands (s : State) (base : Word) (bs : List Byte) (hlen : bs.length ≤ 4096) {j : Nat} (hj : j < bs.length)
    (hl : s.storeLands (byteAddr base j)) : (s.storeBytes base 0 bs).readByte (byteAddr base j) = bs[j] := by
  have hat := (readByte_storeBytes_at s base 0 bs j hj (by omega)).1
  rw [Nat.zero_add] at hat
  exact hat hl

/-- R42: a byte keeps its value where the store is turned away and outside the run. -/
theorem readByte_storeBytes_kept (s : State) (base : Word) (bs : List Byte) (hlen : bs.length ≤ 4096) (q : Addr)
    (h : ¬ s.storeLands q ∨ ∀ j < bs.length, q ≠ byteAddr base j) : (s.storeBytes base 0 bs).readByte q = s.readByte q := by
  by_cases hin : ∃ j < bs.length, q = byteAddr base j
  · obtain ⟨j, hj, rfl⟩ := hin
    have hnot : ¬ s.storeLands (byteAddr base j) := h.resolve_right fun hout => hout j hj rfl
    have hat := (readByte_storeBytes_at s base 0 bs j hj (by omega)).2
    rw [Nat.zero_add] at hat
    exact hat hnot
  · refine readByte_storeBytes_off s base 0 bs q fun j hj heq => hin ⟨j, hj, ?_⟩
    rw [heq, Nat.zero_add]

/-! ### Decimal digits (R124) -/

/-- Settles O44: three stores at `I`; division and remainder of bytes are those of their numbers. -/
theorem storeDecimalDigits : Obligations.StoreDecimalDigits := by
  intro x s
  have hlen : (decimalDigits (s.reg x)).length ≤ 4096 := (by decide : 3 ≤ 4096)
  have digit {j : Nat} (hj : j < 3) := readByte_storeBytes_lands s s.i (decimalDigits (s.reg x)) hlen (j := j) hj
  refine ⟨decode_encode (.ldB x), (s.storeBytes s.i 0 (decimalDigits (s.reg x))).advance, rfl,
    congrArg (· + 2) (storeBytes_pc s s.i 0 _), fun hl => ?_, fun hl => ?_, fun hl => ?_, fun a ha => ?_,
    onlyTouches_of_exec (i := .ldB x) rfl⟩
  · rw [advance_readByte, digit (by decide : 0 < 3) hl]
    exact BitVec.toNat_udiv
  · rw [advance_readByte, digit (by decide : 1 < 3) hl]
    exact BitVec.toNat_umod.trans (congrArg (· % 10) BitVec.toNat_udiv)
  · rw [advance_readByte, digit (by decide : 2 < 3) hl]
    exact BitVec.toNat_umod
  · exact readByte_storeBytes_kept s s.i _ hlen a ha

/-! ### Register transfers (R125 to R127) -/

/-- R125: a byte that LD [I],Vx does not write. -/
theorem readByte_storeBytes_regsUpTo_kept (s : State) (x : Reg) (a : Addr)
    (h : ¬ s.storeLands a ∨ ∀ k ≤ x.val, a ≠ byteAddr s.i k) : (s.storeBytes s.i 0 (s.regsUpTo x)).readByte a = s.readByte a := by
  refine readByte_storeBytes_kept s s.i _ ?_ a (h.imp_right fun hout j hj => hout j ?_)
  · rw [length_regsUpTo]
    omega
  · rw [length_regsUpTo] at hj
    omega

/-- R126: register `k` after LD Vx,[I]. -/
theorem reg_setRegs_loadBytes (s : State) (base : Word) {x k : Reg} (hk : k ≤ x) :
    (s.setRegs 0 (s.loadBytes base (x.val + 1))).reg k = s.readByte (byteAddr base k.val) := by
  have hin : 0 ≤ k.val ∧ k.val < 0 + (s.loadBytes base (x.val + 1)).length := by
    rw [length_loadBytes]
    have := Fin.le_def.mp hk
    omega
  have hlen : 0 + (s.loadBytes base (x.val + 1)).length ≤ 16 := by
    rw [length_loadBytes]
    omega
  rw [reg_setRegs s 0 _ k hlen, dif_pos hin, getElem_loadBytes, Nat.sub_zero]

/-- Settles O45: one store for each register from `I` up, then `I` is advanced. -/
theorem storeRegisters : Obligations.StoreRegisters := by
  intro x s
  refine ⟨decode_encode (.ldMemVx x), ((s.storeBytes s.i 0 (s.regsUpTo x)).setIndex (indexAfter s.i x)).advance, rfl,
    congrArg (· + 2) (storeBytes_pc s s.i 0 _), toNat_indexAfter s.i x, fun k hk hl => ?_,
    readByte_storeBytes_regsUpTo_kept s x, onlyTouches_of_exec (i := .ldMemVx x) rfl⟩
  rw [advance_readByte, setIndex_readByte, readByte_storeBytes_regsUpTo s x k.val hk hl, Fin.ofNat_val_eq_self]

/-- Settles O46: one register write for each byte from `I` up, then `I` is advanced. -/
theorem loadRegisters : Obligations.LoadRegisters := by
  intro x s
  exact ⟨decode_encode (.ldVxMem x), ((s.setRegs 0 (s.loadBytes s.i (x.val + 1))).setIndex (indexAfter s.i x)).advance, rfl,
    congrArg (· + 2) (setRegs_pc s 0 _), toNat_indexAfter s.i x, fun k hk => reg_setRegs_loadBytes s s.i hk,
    onlyTouches_of_exec (i := .ldVxMem x) rfl⟩

/-- Settles O47: the load (O46) reads the bytes that the store (O45) left. -/
theorem registerRoundTrip : Obligations.RegisterRoundTrip := by
  intro x s
  obtain ⟨-, t, hstore, -, hti, hstored, hkept, -⟩ := storeRegisters x s
  refine ⟨t, hstore, hti, fun u hui hmem => ?_⟩
  obtain ⟨-, r, hload, -, hri, hloaded, -⟩ := loadRegisters x u
  have hreg (k : Reg) (hk : k ≤ x) : r.reg k = t.readByte (byteAddr s.i k.val) := by rw [hloaded k hk, hui, hmem]
  refine ⟨r, hload, fun k hk hl => ?_, fun k hk hl => ?_, by rw [hri, hui]⟩
  · rw [hreg k hk, hstored k hk hl]
  · rw [hreg k hk, hkept _ (.inl hl)]

end Sys2Proof.Machine
end

section
/-! ## 44_display.md: the clear, and what a sprite inverts -/

namespace Sys2Proof.Machine

/-- Settles O48: CLS sets the display to the blank one and advances. -/
theorem clearScreen : Obligations.ClearScreen :=
  ⟨decode_encode .cls, fun _ => ⟨_, rfl, pixel_blank, rfl, rfl, onlyTouches_of_exec (i := .cls) rfl⟩⟩

/-! ### The pixels of a drawn sprite (R131) -/

theorem pixel_drawn_of_spriteSets {s : State} {x y : Reg} {n : Fin 16} {py : Fin 32} {px : Fin 64}
    (h : s.spriteSets x y n py px) : (s.drawn x y n).disp.pixel py px = !s.disp.pixel py px := by
  rw [Bool.eq_iff_iff, (drawn_spec s x y n).1 py px, iff_true_right h, Bool.not_eq_true, Bool.not_eq_true']

theorem pixel_drawn_of_not_spriteSets {s : State} {x y : Reg} {n : Fin 16} {py : Fin 32} {px : Fin 64}
    (h : ¬ s.spriteSets x y n py px) : (s.drawn x y n).disp.pixel py px = s.disp.pixel py px := by
  rw [Bool.eq_iff_iff, (drawn_spec s x y n).1 py px, iff_false_right h, Decidable.not_not]

/-- R131: the collision is that a lit pixel was turned off. -/
theorem drawn_hit_iff_turned_off (s : State) (x y : Reg) (n : Fin 16) :
    (s.drawn x y n).hit = true ↔ ∃ py px, s.disp.pixel py px = true ∧ (s.drawn x y n).disp.pixel py px = false := by
  rw [(drawn_spec s x y n).2]
  refine exists_congr fun py => exists_congr fun px => and_congr_right fun hlit => ?_
  by_cases h : s.spriteSets x y n py px
  · simp [pixel_drawn_of_spriteSets h, h, hlit]
  · simp [pixel_drawn_of_not_spriteSets h, h, hlit]

/-! ### DRW -/

/-- R131: VF and the display after DRW are those of the drawn canvas. -/
theorem exec_drw (x y : Reg) (n : Fin 16) (s : State) :
    ∃ t, exec (.drw x y n) s = .next t ∧ t.disp = (s.drawn x y n).disp ∧
      t.reg vf = collisionFlag (s.drawn x y n).hit ∧ t.dirty = true ∧ t.pc = s.pc + 2 :=
  ⟨_, rfl, rfl, reg_setReg_advance _ vf _, rfl, rfl⟩

/-- Settles O49: the drawn canvas gives the pixels, and its collision is a lit pixel turned off. -/
theorem drawSpriteExactly : Obligations.DrawSpriteExactly := by
  intro x y n s
  obtain ⟨t, hx, hdisp, hvf, hdirty, hpc⟩ := exec_drw x y n s
  refine ⟨decode_encode (.drw x y n), t, hx, ?_⟩
  rw [hdisp, hvf]
  refine ⟨fun _ _ => pixel_drawn_of_spriteSets, fun _ _ => pixel_drawn_of_not_spriteSets, fun hoff => ?_, fun hkept => ?_,
    hdirty, hpc, onlyTouches_of_exec hx⟩
  · exact (flagByte_eq_one _).mpr ((drawn_hit_iff_turned_off s x y n).mpr hoff)
  · refine (flagByte_eq_zero _).mpr (Bool.eq_false_iff.mpr fun hhit => ?_)
    obtain ⟨py, px, hlit, hoff⟩ := (drawn_hit_iff_turned_off s x y n).mp hhit
    exact Bool.false_ne_true (hoff.symm.trans (hkept py px hlit))

/-- The place and the bits of a sprite are read from the coordinate registers, `I` and memory alone. -/
theorem spriteSets_congr {s t : State} {x y : Reg} (hx : t.reg x = s.reg x) (hy : t.reg y = s.reg y) (hi : t.i = s.i)
    (hmem : ∀ a, t.readByte a = s.readByte a) (n : Fin 16) (py : Fin 32) (px : Fin 64) :
    t.spriteSets x y n py px ↔ s.spriteSets x y n py px := by
  simp only [State.spriteSets, hx, hy, hi, hmem]

/-- R132 (i): DRW leaves its own sprite where it was, unless a coordinate is in VF. -/
theorem spriteSets_exec_drw {x y : Reg} {n : Fin 16} {s t : State} (hx : x ≠ vf) (hy : y ≠ vf)
    (ht : exec (.drw x y n) s = .next t) (py : Fin 32) (px : Fin 64) :
    t.spriteSets x y n py px ↔ s.spriteSets x y n py px := by
  have hrow := onlyTouches_of_exec ht
  exact spriteSets_congr (hrow.regs x (beq_false_of_ne hx)) (hrow.regs y (beq_false_of_ne hy)) (hrow.index rfl) (hrow.mem rfl)
    n py px

/-- Settles O50: the second draw inverts the pixels the first one did, and those it finds lit were off before. -/
theorem drawTwiceRestores : Obligations.DrawTwiceRestores := by
  intro x y n s hx hy
  obtain ⟨t, ht, htd, -⟩ := exec_drw x y n s
  obtain ⟨u, hu, hud, hvf, -⟩ := exec_drw x y n t
  have same := spriteSets_exec_drw hx hy ht
  refine ⟨t, u, ht, hu, display_ext _ _ fun py px => ?_, ?_⟩
  · rw [hud]
    by_cases h : s.spriteSets x y n py px
    · rw [pixel_drawn_of_spriteSets ((same py px).mpr h), htd, pixel_drawn_of_spriteSets h, Bool.not_not]
    · rw [pixel_drawn_of_not_spriteSets (mt (same py px).mp h), htd, pixel_drawn_of_not_spriteSets h]
  · rw [hvf, collisionFlag, flagByte_eq_one, (drawn_spec t x y n).2]
    refine exists_congr fun py => exists_congr fun px => ?_
    rw [same, and_comm, htd]
    refine and_congr_right fun h => ?_
    rw [pixel_drawn_of_spriteSets h, Bool.not_eq_true']

end Sys2Proof.Machine
end

section
/-! ## 45_keys_timers.md: the key skips, the key wait, the timer instructions -/

namespace Sys2Proof.Machine

/-! ### Skips on a key (R140, R141, R146) -/

/-- R85: a skip on a Boolean, and nothing else. -/
theorem skipIf_pc_and_frame (s : State) (c : Bool) : (c = true → (s.skipIf c).pc = s.pc + 4) ∧
    (c = false → (s.skipIf c).pc = s.pc + 2) ∧ OnlyTouches {} s (s.skipIf c) :=
  ⟨fun h => by simp [h], fun h => by simp [h], (OnlyTouches.refl _ s).skipIf c⟩

theorem exec_skp (x : Reg) (s : State) :
    exec (.skp x) s = .next (s.skipIf (s.key.getLsbD ((s.reg x).toNat % 16))) := by
  rw [← keyDown_keyNumber]
  rfl

theorem exec_sknp (x : Reg) (s : State) :
    exec (.sknp x) s = .next (s.skipIf (!s.key.getLsbD ((s.reg x).toNat % 16))) := by
  rw [← keyDown_keyNumber]
  rfl

/-- Settles O51: SKP skips on the key bit, SKNP on its negation. -/
theorem skipsOnKey : Obligations.SkipsOnKey := by
  intro x s
  refine ⟨decode_encode (.skp x), decode_encode (.sknp x), ⟨_, exec_skp x s, skipIf_pc_and_frame s _⟩,
    ⟨_, exec_sknp x s, ?_⟩⟩
  simpa only [Bool.not_eq_true', Bool.not_eq_false'] using skipIf_pc_and_frame s (!s.key.getLsbD ((s.reg x).toNat % 16))

/-! ### The key wait (R143) -/

theorem waitedKey_of_least {s : State} {k : Fin 16} (hdown : s.keyDown k = true)
    (hleast : ∀ j : Fin 16, j < k → s.keyDown j = false) : s.waitedKey = some k.val :=
  (waitedKey_some s k).mpr ⟨k.isLt, hdown, fun j hj => hleast ⟨j, Nat.lt_trans hj k.isLt⟩ hj⟩

theorem waitedKey_of_no_key {s : State} (hnone : ∀ k : Fin 16, s.keyDown k = false) : s.waitedKey = none := by
  rw [waitedKey_none]
  refine BitVec.eq_of_getLsbD_eq fun k hk => ?_
  rw [BitVec.ofNat_eq_ofNat, BitVec.getLsbD_zero]
  exact hnone ⟨k, hk⟩

/-- Settles O53: the key waited for is the least one down, and without one `PC` is set to itself. -/
theorem waitForKey : Obligations.WaitForKey := by
  intro x s
  refine ⟨decode_encode (.ldVxK x), ?_⟩
  cases hkey : s.waitedKey with
  | some j =>
    refine ⟨_, exec_ldVxK_of_some x hkey, fun k hdown hleast => ?_, fun hnone => ?_⟩
    · obtain rfl : j = k.val := Option.some.inj (hkey.symm.trans (waitedKey_of_least hdown hleast))
      refine ⟨?_, rfl, onlyTouches_setReg_advance s x _⟩
      rw [reg_setReg_advance, BitVec.toNat_ofNat]
      omega
    · cases hkey.symm.trans (waitedKey_of_no_key hnone)
  | none =>
    refine ⟨_, exec_ldVxK_of_none x hkey, fun k hdown hleast => ?_, fun _ => rfl⟩
    cases hkey.symm.trans (waitedKey_of_least hdown hleast)

/-! ### The timers (R142, R144, R145) -/

/-- Settles O52: one register write, of `DT` as the execute step finds it, and the advance. -/
theorem readDelayTimer : Obligations.ReadDelayTimer := by
  intro x s
  exact ⟨decode_encode (.ldVxDT x), _, rfl, reg_setReg_advance s x _, rfl, onlyTouches_setReg_advance s x _⟩

/-- R80: a cycle that fetches the word of an instruction runs that instruction and ticks. -/
theorem step_of_fetched {i : Instr} {s t : State} (hw : s.fetchWord = encode i) (hx : exec i s = .next t) :
    step s = .next t.tick := by
  rw [step_of_ok (hw ▸ decode_encode i), hx, endCycle_next]

/-- R153: the sound is on while `ST` is not 0. -/
theorem soundActive_eq_decide (s : State) : s.soundActive = decide (0 < s.st.toNat) := by
  rw [Bool.eq_iff_iff]
  simp [State.soundActive, BitVec.toNat_eq, Nat.pos_iff_ne_zero]

/-- R151, R153: the tick leaves the sound on when `ST` was above 1. -/
theorem soundActive_tick (s : State) : s.tick.soundActive = decide (1 < s.st.toNat) := by
  rw [soundActive_eq_decide, tick_st, toNat_countDown, decide_eq_decide]
  omega

/-- Settles O54: each load writes its timer and advances, and the cycle's tick counts the loaded value down. -/
theorem loadTimers : Obligations.LoadTimers := by
  intro x s
  refine ⟨decode_encode (.ldDT x), decode_encode (.ldST x),
    ⟨_, rfl, rfl, rfl, onlyTouches_of_exec (i := .ldDT x) rfl, fun hw => ?_⟩,
    ⟨_, rfl, rfl, rfl, onlyTouches_of_exec (i := .ldST x) rfl, fun hw => ?_⟩⟩
  · exact ⟨_, step_of_fetched (i := .ldDT x) hw rfl, toNat_countDown _⟩
  · exact ⟨_, step_of_fetched (i := .ldST x) hw rfl, toNat_countDown _, soundActive_tick _⟩

end Sys2Proof.Machine
end

section
/-! ## 60_exceptions.md: a run of cycles, and the host operations -/

namespace Sys2Proof.Machine

/-! ### The timers in a run of cycles (R151, R152) -/

theorem run_succ_of_step (M : Host.Core) {s t : M.State} (hs : M.step s = .next t) (k : Nat) : M.run (k + 1) s = M.run k t := by
  rw [Host.Core.run, hs]

/-- R151: a cycle that loads no timer takes one from each, down to 0. -/
theorem step_timers_of_no_load {s : State}
    (h : ∀ x, decode s.fetchWord ≠ .ok (.ldDT x) ∧ decode s.fetchWord ≠ .ok (.ldST x)) :
    ∃ t, step s = .next t ∧ t.dt.toNat = s.dt.toNat - 1 ∧ t.st.toNat = s.st.toNat - 1 := by
  obtain ⟨t, hs, hdt, hst⟩ := timersTickEveryCycle s
  refine ⟨t, hs, ?_, ?_⟩
  · split at hdt
    next x hld => exact absurd hld (h x).1
    next => exact hdt
  · split at hst
    next x hld => exact absurd hld (h x).2
    next => exact hst

/-- Settles O13, by induction on the number of cycles: the first one takes one from each timer, the others the rest. -/
theorem timersCountCycles : Obligations.TimersCountCycles := by
  intro k
  induction k with
  | zero => exact fun s _ => ⟨s, rfl, rfl, rfl⟩
  | succ k ih =>
    intro s hno
    obtain ⟨t, hs, hdt, hst⟩ := step_timers_of_no_load (hno 0 (Nat.succ_pos k) s rfl)
    obtain ⟨u, hu, hdt', hst'⟩ := ih t fun j hj u hu =>
      hno (j + 1) (Nat.succ_lt_succ hj) u ((run_succ_of_step Sys2Proof.core hs j).trans hu)
    refine ⟨u, (run_succ_of_step Sys2Proof.core hs k).trans hu, ?_, ?_⟩
    · rw [hdt', hdt, Nat.sub_sub, Nat.add_comm]
    · rw [hst', hst, Nat.sub_sub, Nat.add_comm]

/-! ### `DIRTY` and the display (R19, R172) -/

/-- R25's columns for the display and `DIRTY`: CLS and DRW write both, no other instruction writes either. -/
theorem touched_display (c : Config) (i : Instr) :
    (i = .cls ∨ ∃ x y n, i = .drw x y n) ∨ ((touched c i).disp = false ∧ (touched c i).dirty = false) := by
  cases i with
  | cls => exact .inl (.inl rfl)
  | drw x y n => exact .inl (.inr ⟨x, y, n, rfl⟩)
  | _ => exact .inr ⟨rfl, rfl⟩

/-- R19: a cycle sets `DIRTY`, or leaves it and the display. -/
theorem step_display_cases {s u : State} (hu : step s = .next u) :
    u.dirty = true ∨ (u.dirty = s.dirty ∧ u.disp = s.disp) := by
  obtain ⟨e, _, hs⟩ | ⟨i, t, _, hx, hrow, hs⟩ := step_cases s
  · cases hs.symm.trans hu
    exact .inr ⟨rfl, rfl⟩
  · cases hs.symm.trans hu
    obtain (rfl | ⟨x, y, n, rfl⟩) | ⟨hdisp, hdirty⟩ := touched_display s.cfg i
    · cases hx
      exact .inl rfl
    · cases hx
      exact .inl rfl
    · exact .inr ⟨hrow.dirty hdirty, hrow.disp hdisp⟩

/-- R172: a move that neither reads the display nor resets sets `DIRTY`, or leaves it and the display. -/
theorem hostMove_display_cases {m : HostMove} {s t : State} (hread : m ≠ .displayRead) (hreset : m ≠ .reset)
    (ht : hostMove m s = .next t) : t.dirty = true ∨ (t.dirty = s.dirty ∧ t.disp = s.disp) := by
  cases m with
  | reset => exact absurd rfl hreset
  | displayRead => exact absurd rfl hread
  | step => exact step_display_cases ht
  | load bytes =>
    obtain ⟨_, hl⟩ := hostMove_load bytes s
    cases hl.symm.trans ht
    exact .inr ⟨rfl, rfl⟩
  | displayClear =>
    cases ht
    exact .inl rfl
  | keysWrite _ | keysRead | rndSupply _ =>
    cases ht
    exact .inr ⟨rfl, rfl⟩

/-- Settles O21: a move that leaves `DIRTY` = 0 did not set it, so it left it and the display. -/
theorem dirtyIsConservative : Obligations.DirtyIsConservative := by
  refine ⟨fun m s t hread hreset ht hclean => ?_, fun s => ⟨rfl, rfl⟩⟩
  obtain hset | ⟨hdirty, hdisp⟩ := hostMove_display_cases hread hreset ht
  · exact absurd (hset.symm.trans hclean) (by decide)
  · exact ⟨hdirty.symm.trans hclean, hdisp⟩

/-! ### H_LOAD (R163) -/

theorem hostMove_load_of_bad {bytes : List Byte} (s : State) (h : bytes.length = 0 ∨ progMax < bytes.length) :
    hostMove (.load bytes) s = .next s := by
  rw [hostMove, hLoad_of_bad s h]

theorem hostMove_load_of_good {bytes : List Byte} (s : State) (h : ¬ (bytes.length = 0 ∨ progMax < bytes.length)) :
    hostMove (.load bytes) s = .next (s.placeBytes progBase bytes) := by
  rw [hostMove, hLoad_of_good s h]

/-- R163: 0x200 + 3584 = 4096, so byte `k` of a good image has its own address. -/
theorem toNat_loadAddr {len k : Nat} (hlen : len ≤ 3584) (hk : k < len) : (BitVec.ofNat 12 (0x200 + k)).toNat = 0x200 + k := by
  rw [BitVec.toNat_ofNat]
  omega

/-- Settles O55: a good load is `placeBytes` at 0x200, whose law gives every byte of memory. -/
theorem hostLoad : Obligations.HostLoad := by
  intro bytes s
  refine ⟨fun hbad => ⟨hLoad_of_bad s hbad, hostMove_load_of_bad s hbad⟩, fun hpos hmax => ?_⟩
  have hgood : ¬ (bytes.length = 0 ∨ progMax < bytes.length) := by
    rw [progMax]
    omega
  have hbyte (a : Addr) := readByte_placeBytes s 0x200 bytes a (by omega)
  refine ⟨s.placeBytes 0x200 bytes, hLoad_of_good s hgood, hostMove_load_of_good s hgood, fun k hk => ?_, fun a ha => ?_,
    placeBytes_eq s 0x200 bytes⟩
  · have haddr := toNat_loadAddr hmax hk
    rw [hbyte, dif_pos (by omega)]
    simp only [haddr, Nat.add_sub_cancel_left]
  · rw [hbyte, dif_neg (by omega)]

/-! ### H_DISPLAY_READ and H_DISPLAY_CLEAR (R160, R164) -/

/-- Settles O56: the grid's bits are the pixels, and the two states evaluate. -/
theorem hostDisplay : Obligations.HostDisplay :=
  fun s => ⟨getLsbD_grid s, rfl, rfl, pixel_blank, rfl⟩

/-! ### The keys (R161, R162) -/

/-- R161: the vector of a set has exactly the bits of its keys. -/
theorem getLsbD_keysOf (pressed : List (Fin 16)) (k : Fin 16) : (keysOf pressed).getLsbD k.val = decide (k ∈ pressed) := by
  induction pressed with
  | nil => exact BitVec.getLsbD_zero
  | cons p ps ih =>
    have hbit : (BitVec.twoPow 16 p.val).getLsbD k.val = decide (k = p) := by
      simp [Fin.ext_iff]
    simp only [keysOf, BitVec.getLsbD_or, hbit, ih, List.mem_cons, Bool.decide_or]

/-- R20, R161: no cycle writes `KEY`. -/
theorem step_key {s u : State} (hu : step s = .next u) : u.key = s.key := by
  obtain ⟨e, _, hs⟩ | ⟨i, t, _, _, hrow, hs⟩ := step_cases s
  · cases hs.symm.trans hu
    rfl
  · cases hs.symm.trans hu
    exact hrow.key

/-- R161: "It is the only way `KEY` changes after reset." -/
theorem hostMove_key {m : HostMove} {s t : State} (hreset : m ≠ .reset) (hkeys : ∀ pressed, m ≠ .keysWrite pressed)
    (ht : hostMove m s = .next t) : t.key = s.key := by
  cases m with
  | reset => exact absurd rfl hreset
  | keysWrite pressed => exact absurd rfl (hkeys pressed)
  | step => exact step_key ht
  | load bytes =>
    obtain ⟨_, hl⟩ := hostMove_load bytes s
    cases hl.symm.trans ht
    rfl
  | keysRead | displayRead | displayClear | rndSupply _ =>
    cases ht
    rfl

/-- Settles O57: the written vector is that of the set, and the moves other than the write and reset leave `KEY`. -/
theorem hostKeys : Obligations.HostKeys :=
  ⟨fun pressed _ => ⟨rfl, getLsbD_keysOf pressed, rfl⟩, fun _ _ _ => hostMove_key, fun _ => ⟨rfl, fun _ => rfl⟩⟩

/-! ### H_RESET (R165, R180) -/

/-- Settles O59: H_RESET is the reset state of the machine's configuration, whose memory is canonical by O17. -/
theorem hostReset : Obligations.HostReset :=
  fun s => ⟨rfl, rfl, resetMemoryIsCanonical.2 s.cfg, rfl⟩

end Sys2Proof.Machine
end

section
/-! ## 70_reset_and_hazards.md: the self-jump -/

namespace Sys2Proof.Machine

/-- R90: a jump to the address in `PC` leaves the state as it was. -/
theorem exec_jp_of_atSelfJump {a : Addr} {s : State} (h : s.AtSelfJump a) : exec (.jp a) s = .next s := by
  have hpc : s.pc = target a := h.1
  calc exec (.jp a) s = .next (s.setPc (target a)) := rfl
    _ = .next (s.setPc s.pc) := by rw [hpc]
    _ = .next s := rfl

/-- R192: the cycle at a self-jump is the tick alone. -/
theorem step_of_atSelfJump {a : Addr} {s : State} (h : s.AtSelfJump a) : step s = .next s.tick :=
  step_of_fetched (i := .jp a) h.2 (exec_jp_of_atSelfJump h)

/-- R84: the tick changes neither `PC` nor memory. -/
theorem atSelfJump_tick {a : Addr} {s : State} (h : s.AtSelfJump a) : s.tick.AtSelfJump a :=
  ⟨h.1, (fetchWord_congr (tick_pc s) (tick_readByte s)).trans h.2⟩

/-- Settles O24: the cycle is the tick alone, which writes only the timers and so keeps the self-jump. -/
theorem selfJumpOnlyRunsTimers : Obligations.SelfJumpOnlyRunsTimers :=
  fun _ s h => ⟨s.tick, step_of_atSelfJump h, atSelfJump_tick h, rfl, toNat_countDown s.dt, toNat_countDown s.st⟩

end Sys2Proof.Machine
end
